-- ==== Sys2Proof/Word.lean ====
section
/-! DEFINITION. The value domains of the simpletron core (00_scope.md R4, R5): decimal words, texts,
tokens and memory cells. There are no binary widths in this machine (R4, R7), so nothing here is a
bit vector. The spec's `Word`, the integers -9999 to 9999, is Lean's `Int` with the range as the
invariant R10 speaks of (`Machine.inRange`, `Machine.Inv`), because every intermediate result is an
unbounded integer (R5, R121). -/

namespace Sys2Proof

/-- A text: a source line, a name or a token, as its characters. -/
abbrev Text := List Char

/-- A non-numeric input token (R5). The engine never looks inside one. -/
abbrev Token := Text

/-- What a memory cell holds (R5, R15): a number or a raw token. The spec's third alternative,
`Uninit`, is the ABSENCE of a cell value: a read of memory answers an `Option Cell`, and `none` is
`Uninit`. No operation can store it, as R37 says: only the loader's fill makes cells `Uninit`. -/
inductive Cell where
  /-- `Numeric(w)`. -/
  | numeric (w : Int)
  /-- `Raw(t)`: only READ makes one (R15). -/
  | raw (t : Token)
  deriving DecidableEq, Repr

end Sys2Proof
end

