-- ==== Sys2Proof/Machine/Arith.lean ====
section
/-! DEFINITION. The decimal arithmetic every part of the model shares: the range of a word (R3, R5),
division truncated toward zero (R121), and the two-digit fields of a word (R4, R52). -/

namespace Sys2Proof.Machine

/-- WORD_MIN of the parameter table (R3). -/
def wordMin : Int := -9999

/-- WORD_MAX of the parameter table (R3). -/
def wordMax : Int := 9999

/-- OPERAND_MAX of the parameter table (R3): an operand is two decimal digits (R51). -/
def operandMax : Nat := 99

/-- The integer `z` is a `Word` (R5): -9999 and 9999 belong to the range. -/
def inRange (z : Int) : Bool := decide (wordMin ≤ z) && decide (z ≤ wordMax)

/-- `tdiv(a, b) = sign(a) * sign(b) * floor(|a| / |b|)`, the quotient truncated toward zero (R121,
decision D5). Only used with `b ≠ 0`. -/
def tdiv (a b : Int) : Int := a.sign * b.sign * ((a.natAbs / b.natAbs : Nat) : Int)

/-- `tmod(a, b) = a - b * tdiv(a, b)`, the remainder with the sign of the dividend (R121). -/
def tmod (a b : Int) : Int := a - b * tdiv a b

/-- The opcode field `op` of a word, `digits[3:2]` for a non-negative word. For a negative word R52
lets a model take the truncating quotient; every such value is unassigned. -/
def wordOpcode (w : Int) : Int := tdiv w 100

/-- The operand field `k` of a word, `digits[1:0]` for a non-negative word (R52). -/
def wordOperand (w : Int) : Int := tmod w 100

end Sys2Proof.Machine
end

