-- ==== Sys2Proof/Config.lean ====
section
/-! DEFINITION. What the spec leaves as named parameters of the model (R3): `CAP` (decision D3) and
`FILL` (decision D4). They are plain data carried unchanged in the machine's state, so a statement
about every state is a statement about every `CAP` and every `FILL`. Nothing else is configurable:
the division rounding is fixed by R121, the identifier syntax by R61. -/

namespace Sys2Proof

/-- The two open parameters of R3. -/
structure Config where
  /-- `CAP`: Memory's capacity in cells; addresses are 0 to `cap - 1` (D3). -/
  cap : Nat
  /-- `FILL`: what a cell holds that the loader did not write (D4); `none` is `Uninit`. It is also
  the ONE definition of what an address that memory does not list reads as. -/
  fill : Option Cell
  deriving DecidableEq, Repr

/-- The recommended instance of both parameters: `CAP = 100` and `FILL = Uninit` (R3, D3, D4).
DESIGN CHOICE (log entries 1 and 2): the spec recommends these values and fixes neither. -/
def Config.recommended : Config := { cap := 100, fill := none }

end Sys2Proof
end

