-- ==== Sys2Proof/Syntax.lean ====
section
/-! DEFINITION. The syntax of both agents: the nineteen machine instructions of the opcode map
(30_encoding.md R54) and the five classes of a source line (R60). -/

namespace Sys2Proof

/-- A machine instruction: one constructor per row of spec/opcode_table.json, in the table's order.
Each carries the operand field `k` of its word (R8, R53). HALT carries it too, although R56 says it
is ignored, so that decoding drops no digit. A well-formed instruction has `k ≤ 99` (R51). -/
inductive Instr where
  /-- 10, READ: input item to Memory[k] (R100). -/
  | read (k : Nat)
  /-- 11, WRITE: Memory[k] to output (R101). -/
  | write (k : Nat)
  /-- 20, LOAD: accumulator from Memory[k] (R110). -/
  | load (k : Nat)
  /-- 21, STORE: accumulator to Memory[k] (R111). -/
  | store (k : Nat)
  /-- 22, LOADI: accumulator from the literal k (R112). -/
  | loadi (k : Nat)
  /-- 30, ADD: accumulator plus Memory[k] (R124). -/
  | add (k : Nat)
  /-- 31, SUBT: accumulator minus Memory[k] (R125). -/
  | subt (k : Nat)
  /-- 32, DIV: accumulator divided by Memory[k] (R126). -/
  | div (k : Nat)
  /-- 33, MOD: accumulator modulo Memory[k] (R127). -/
  | mod (k : Nat)
  /-- 34, MULT: accumulator times Memory[k] (R128). -/
  | mult (k : Nat)
  /-- 35, ADDI: accumulator plus k (R129). -/
  | addi (k : Nat)
  /-- 36, SUBTI: accumulator minus k (R130). -/
  | subti (k : Nat)
  /-- 37, DIVI: accumulator divided by k (R131). -/
  | divi (k : Nat)
  /-- 38, MODI: accumulator modulo k (R132). -/
  | modi (k : Nat)
  /-- 39, MULTI: accumulator times k (R133). -/
  | multi (k : Nat)
  /-- 40, JUMP: to k (R143). -/
  | jump (k : Nat)
  /-- 41, JUMPN: to k if the accumulator is negative (R144). -/
  | jumpn (k : Nat)
  /-- 42, JUMPZ: to k if the accumulator is zero (R145). -/
  | jumpz (k : Nat)
  /-- 43, HALT: stop; the operand digits are ignored (R146, R56). -/
  | halt (k : Nat)
  deriving DecidableEq, Repr

/-- The operand field of an instruction (R8). -/
def Instr.operand : Instr → Nat
  | .read k => k
  | .write k => k
  | .load k => k
  | .store k => k
  | .loadi k => k
  | .add k => k
  | .subt k => k
  | .div k => k
  | .mod k => k
  | .mult k => k
  | .addi k => k
  | .subti k => k
  | .divi k => k
  | .modi k => k
  | .multi k => k
  | .jump k => k
  | .jumpn k => k
  | .jumpz k => k
  | .halt k => k

/-- The class of a source line: exactly one of five (R60). -/
inductive LineClass where
  /-- A line with no tokens. -/
  | blank
  /-- A full-line comment. -/
  | comment
  /-- A label definition; the name is the text before the colon, not yet checked (R60, R77c). -/
  | labelDef (name : Text)
  /-- A variable declaration with its initial value (R60, R61). -/
  | varDecl (name : Text) (value : Int)
  /-- An instruction line: the mnemonic token and ALL tokens after it, of which a well-shaped line
  has at most one (R60, R77a). -/
  | instr (mnemonic : Text) (operands : List Text)
  deriving DecidableEq, Repr

end Sys2Proof
end

