-- ==== Sys2Proof/WellFormed.lean ====
section
/-! DEFINITION. The checks that make syntax, cells and parameters meaningful: an operand is two
decimal digits (R51), a numeric cell is a `Word` and a token is not empty (R5), `CAP` is at least 1
and `FILL` is a lawful cell (R3). -/

namespace Sys2Proof

/-- The operand is 0 to 99: "operand in [0,99]" (R51). It is the only check an instruction has. -/
def Instr.wf (i : Instr) : Bool := decide (i.operand ≤ Machine.operandMax)

/-- A cell value is lawful (R5, R15): a number is a `Word`, a token has at least one character. That
a token is not the text of an integer is the host's tagging (D13; log entry 7). -/
def Cell.wf : Cell → Bool
  | .numeric w => Machine.inRange w
  | .raw t => !t.isEmpty

/-- The parameters are lawful (R3): `CAP ≥ 1`, and `FILL` is `Uninit` or a lawful cell. -/
def Config.wf (c : Config) : Bool := decide (1 ≤ c.cap) && c.fill.all Cell.wf

end Sys2Proof
end

