-- ==== Sys2Proof/Decode.lean ====
section
/-! DEFINITION. The decoder of the machine word and, after it, the encoder (30_encoding.md R50 to
R57, R64, R65). A word is a decimal number; the opcode is its two most significant decimal digits,
the operand its two least significant. -/

namespace Sys2Proof

/-- Why a number is no instruction. There is one reason and it is not a fault: R55. -/
inductive DecodeReject where
  /-- The opcode field is none of the nineteen: the unknown-opcode path of R147, with the field. -/
  | unknownOpcode (op : Int)
  deriving DecidableEq, Repr

/-- The opcode map (R54): the instruction with opcode `op` and operand `k`, if `op` is assigned. -/
def instrOfOpcode (op k : Nat) : Option Instr :=
  match op with
  | 10 => some (.read k)
  | 11 => some (.write k)
  | 20 => some (.load k)
  | 21 => some (.store k)
  | 22 => some (.loadi k)
  | 30 => some (.add k)
  | 31 => some (.subt k)
  | 32 => some (.div k)
  | 33 => some (.mod k)
  | 34 => some (.mult k)
  | 35 => some (.addi k)
  | 36 => some (.subti k)
  | 37 => some (.divi k)
  | 38 => some (.modi k)
  | 39 => some (.multi k)
  | 40 => some (.jump k)
  | 41 => some (.jumpn k)
  | 42 => some (.jumpz k)
  | 43 => some (.halt k)
  | _ => none

/-- Decoding is total on numbers and only classifies (R52): a negative number has an opcode field of
at most 0, which `toNat` sends to the unassigned opcode 0, as R52 argues. -/
def decode (w : Int) : Except DecodeReject Instr :=
  match instrOfOpcode (Machine.wordOpcode w).toNat (Machine.wordOperand w).toNat with
  | some i => .ok i
  | none => .error (.unknownOpcode (Machine.wordOpcode w))

/-- The opcode value of an instruction (R54). -/
def Instr.opcode : Instr → Nat
  | .read _ => 10
  | .write _ => 11
  | .load _ => 20
  | .store _ => 21
  | .loadi _ => 22
  | .add _ => 30
  | .subt _ => 31
  | .div _ => 32
  | .mod _ => 33
  | .mult _ => 34
  | .addi _ => 35
  | .subti _ => 36
  | .divi _ => 37
  | .modi _ => 38
  | .multi _ => 39
  | .jump _ => 40
  | .jumpn _ => 41
  | .jumpz _ => 42
  | .halt _ => 43

/-- `encode(op, k) = op*100 + k` (R65, R80), for `k` from 0 to 99. -/
def encodeWord (op k : Nat) : Int := ((op * 100 + k : Nat) : Int)

/-- The word of a well-formed instruction: an instruction is always one cell (R50, R57). -/
def encode (i : Instr) : Int := encodeWord i.opcode i.operand

/-- The instruction the decoder reads from the table's number `w`. The table is decimal (R64): a
row's `match` and `mask` are decimal numbers, so `w` is the word itself as a number, and there is
no byte order and no bit layout (R34). An instruction is one cell, so `nbits` cuts nothing off (log
entry 4). -/
def decodeTableWord (_nbits w : Nat) : Option Instr :=
  match decode (w : Int) with
  | .ok i => some i
  | .error _ => none

end Sys2Proof
end

