-- ==== Sys2Proof/Machine/State.lean ====
section
/-! DEFINITION. The state of both agents, as plain data (10_state.md R10 to R21): the Execution
Engine's accumulator, program counter, run state and memory; the three streams at its boundary; the
Assembler's tables, counters and phase; and the two open parameters. -/

namespace Sys2Proof.Machine

/-! ## The Execution Engine -/

/-- The fault causes, a closed enumeration with exactly these seven names (R13, D12). When each is
raised is the table of 60_exceptions.md R160. -/
inductive FaultCause where
  /-- The exact result of an arithmetic opcode is outside -9999 to 9999. -/
  | arithRange
  /-- READ took an integer outside -9999 to 9999. -/
  | inputRange
  /-- MOD or MODI with second operand 0. -/
  | modZero
  /-- LOAD or memory arithmetic read a raw token (D7). -/
  | nonNumericOperand
  /-- The fetch read a raw token (D8). -/
  | nonNumericFetch
  /-- A read of a cell that holds no value (D4). -/
  | uninitRead
  /-- An operand names an address at or beyond `CAP` (D9). -/
  | addressOutOfRange
  deriving DecidableEq, Repr

/-- The run state `state` of R12. -/
inductive RunState where
  /-- The next trigger performs a cycle. -/
  | running
  /-- Terminal: opcode 43 reached. -/
  | halted
  /-- Terminal: an unrecoverable runtime condition reached. -/
  | faulted (c : FaultCause)
  /-- Terminal: the program counter reached Memory's capacity (D10). -/
  | exhausted
  deriving DecidableEq, Repr

/-- An item of the input stream (R16, D13). Which typed line is which item is the host's tagging. -/
inductive InputItem where
  /-- `InInt(z)`, an integer of any size. -/
  | inInt (z : Int)
  /-- `InTok(t)`, any other token. -/
  | inTok (t : Token)
  deriving DecidableEq, Repr

/-- An item of the output stream (R16, D14). -/
inductive OutputItem where
  /-- `OutNum(w)`. -/
  | outNum (w : Int)
  /-- `OutRaw(t)`. -/
  | outRaw (t : Token)
  deriving DecidableEq, Repr

/-! ## The Assembler -/

/-- Why an assembly yields no image (60_exceptions.md R161). -/
inductive AsmFailure where
  /-- The first token of an instruction line is no mnemonic: the source's one AssemblyError (R76). -/
  | unknownMnemonic (token : Text)
  /-- An instruction line with more than two tokens, or a label name that is no identifier (R77). -/
  | malformedLine
  /-- An operand-bearing mnemonic without an operand token (R77). -/
  | missingOperand
  /-- A resolved operand above 99 (R81). -/
  | operandOverflow (token : Text) (value : Nat)
  /-- A first declaration's value outside -9999 to 9999 (R82). -/
  | initValueRange (name : Text) (value : Int)
  deriving DecidableEq, Repr

/-- The one AssemblyWarning (R162). -/
inductive AsmWarning where
  /-- An operand token that is no literal, no label and no variable; 0 is used (R79). -/
  | undefinedSymbol (token : Text)
  deriving DecidableEq, Repr

/-- An item of the diagnostic stream (R16, D15). -/
inductive Diagnostic where
  /-- `UnknownOpcode(op, address)`, a runtime warning (R147). -/
  | unknownOpcode (op : Int) (address : Nat)
  /-- `DivByZero(address)`, a runtime warning (R123). -/
  | divByZero (address : Nat)
  /-- `FaultReport(cause, address)`, from fault entry (R167). -/
  | faultReport (cause : FaultCause) (address : Nat)
  /-- An AssemblyWarning of the Assembler (R79, D15). -/
  | undefinedSymbol (token : Text)
  /-- The reason of a failed assembly (R85, D15). -/
  | assemblyFailed (reason : AsmFailure)
  deriving DecidableEq, Repr

/-- An entry of the symbol table (R17). -/
structure VarEntry where
  name : Text
  address : Nat
  value : Int
  deriving DecidableEq, Repr

/-- A successful assembly (R20, R83): the origin N, the N data words, the M instruction words, the
two tables and the warnings. M is the length of `words`. -/
structure Image where
  origin : Nat
  data : List Int
  words : List Int
  vars : List VarEntry
  labels : List (Text × Nat)
  warnings : List AsmWarning
  deriving DecidableEq, Repr

/-- The phase of an assembly; it moves in this one direction (R20). -/
inductive AsmPhase where
  | start
  | scan1A
  | scan1B
  | scan2
  /-- The outcome `Image`. -/
  | image (img : Image)
  /-- The outcome `Failed(reason)`. -/
  | failed (reason : AsmFailure)
  deriving DecidableEq, Repr

/-- The explicit state threaded through the scans (R17 to R20). -/
structure AsmState where
  phase : AsmPhase
  /-- The symbol table, in first-declaration order (R17). -/
  vars : List VarEntry
  /-- The label table (R18). -/
  labels : List (Text × Nat)
  /-- `next_data` (R19). -/
  nextData : Nat
  /-- `next_instr` (R19); before scan 1B the spec gives it no value (log entry 18). -/
  nextInstr : Nat
  /-- Scan 2's own address counter (R19); before scan 2 the spec gives it no value (log entry 18). -/
  nextWord : Nat
  /-- The instruction words emitted so far (R75). -/
  words : List Int
  /-- The AssemblyWarnings raised so far (R79). -/
  warnings : List AsmWarning
  deriving DecidableEq, Repr

/-- The start of an assembly: the two tables empty (R17, R18), `next_data` 0 (R19, R21), no words and
no warnings yet. `nextInstr` and `nextWord` are 0 here: DESIGN CHOICE (log entry 18), because R19, R21
and R86 give `next_instr` a value only from the start of scan 1B and scan 2's counter only from the
start of scan 2. -/
def AsmState.start : AsmState :=
  { phase := .start, vars := [], labels := [], nextData := 0, nextInstr := 0, nextWord := 0,
    words := [], warnings := [] }

/-! ## The whole machine -/

/-- Memory (R15): the cells that differ from `FILL`, as address and value, addresses strictly
rising. A list entry is a CELL of this machine and not a byte: R34 forbids a byte-level view. -/
abbrev Memory := List (Nat × Cell)

/-- `Memory.wf` says a memory is in the one canonical form under the parameters `cfg`: addresses
strictly rising, every address below `CAP` (R15), no entry equal to what an unlisted address reads
as, and every value a lawful cell (R5). -/
abbrev Memory.wf (cfg : Config) (m : Memory) : Prop :=
  (m.map Prod.fst).Pairwise (· < ·) ∧
    ∀ e ∈ m, e.1 < cfg.cap ∧ some e.2 ≠ cfg.fill ∧ e.2.wf = true

/-- Everything the spec gives the machine, as plain data. -/
structure State where
  /-- The parameters `CAP` and `FILL` (R3). No step changes them. -/
  cfg : Config
  /-- The accumulator (R10). -/
  acc : Int
  /-- The program counter (R11): the address of the cell the next cycle fetches. -/
  pc : Nat
  /-- The run state (R12). -/
  state : RunState
  /-- Memory (R15). -/
  mem : Memory
  /-- The input items the host has supplied and READ has not yet taken, next one first (R16). -/
  input : List InputItem
  /-- The output history, oldest first (R16). -/
  output : List OutputItem
  /-- The diagnostic history, oldest first (R16). -/
  diag : List Diagnostic
  /-- The Assembler's state (R17 to R20). The engine never reads or writes it (R169). -/
  asm : AsmState
  deriving DecidableEq, Repr

/-- The reasons a step of the model could stop outside the machine. There are NONE: every runtime
fault of the spec is a state of the machine, `RunState.faulted`, entered by a next state (R167), so
this type has no constructor. Safe: nothing the spec gives an effect is cut off. -/
inductive Fault where
  deriving DecidableEq, Repr

/-- The reasons the model could refuse an instruction. -/
inductive Refusal where
  /-- Raised by an arm of `exec` whose instruction has no meaning yet; no arm raises it in this
  model. Safe: a refused instruction proves nothing about the hardware. -/
  | notModelled (mnemonic : String)
  deriving DecidableEq, Repr

/-- What a step or a meaning answers. -/
abbrev Result := Host.Outcome State Fault Refusal

/-- The machine right after reset with no program loaded (R21, R180): `acc = 0`, `state = Running`,
`pc` the origin of the image, which is 0 when there is no image (log entry 3), memory all FILL,
histories empty, no input supplied, the Assembler's tables empty; the parameters are the spec's
recommended ones. -/
def State.reset : State :=
  { cfg := Config.recommended, acc := 0, pc := 0, state := .running, mem := [], input := [],
    output := [], diag := [], asm := AsmState.start }

end Sys2Proof.Machine
end

