-- ==== Sys2Proof/Machine/Ops.lean ====
section
/-! DEFINITION. The named operations over memory, registers, run state and streams (00_scope.md R7),
with TAKING A FAULT as one shared operation (60_exceptions.md R167) and reset, the only way out of a
terminal state, beside it (R168, R180). -/

namespace Sys2Proof.Machine

/-! ## Memory -/

/-- The value of the cell at `a`: the listed one, else the fill (R15). `none` is `Uninit`. -/
def Memory.read (fill : Option Cell) (m : Memory) (a : Nat) : Option Cell :=
  match m with
  | [] => fill
  | (b, c) :: rest => if a = b then some c else Memory.read fill rest a

/-- `m` without any entry for `a`. -/
def Memory.erase (m : Memory) (a : Nat) : Memory := m.filter fun e => decide (e.1 ≠ a)

/-- `m` with the entry `(a, c)` put before the first larger address. -/
def Memory.insert (m : Memory) (a : Nat) (c : Cell) : Memory :=
  match m with
  | [] => [(a, c)]
  | (b, d) :: rest => if a < b then (a, c) :: (b, d) :: rest else (b, d) :: Memory.insert rest a c

/-- Replace the cell at `a` by `c`, keeping the canonical form: writing the value that an unlisted
address reads as removes the entry. -/
def Memory.write (fill : Option Cell) (m : Memory) (a : Nat) (c : Cell) : Memory :=
  if fill = some c then m.erase a else (m.erase a).insert a c

/-- Write the numbers `ws` to the cells from address `a` on (the loader's work, R84). -/
def Memory.writeWords (fill : Option Cell) (m : Memory) (a : Nat) (ws : List Int) : Memory :=
  match ws with
  | [] => m
  | w :: rest => Memory.writeWords fill (m.write fill a (.numeric w)) (a + 1) rest

/-- What the cell at `a` holds; `none` is `Uninit`. -/
def State.cellAt (s : State) (a : Nat) : Option Cell := s.mem.read s.cfg.fill a

/-- `MemRead(a, 1)` (R7, R36, R37): `AddressOutOfRange` first, then `UninitRead` (R166). -/
def memRead (s : State) (a : Nat) : Except FaultCause Cell :=
  if a < s.cfg.cap then
    match s.cellAt a with
    | some c => .ok c
    | none => .error .uninitRead
  else .error .addressOutOfRange

/-- `NumRead(a)` (R38): `MemRead`, then `NonNumericOperand` on a raw cell. -/
def numRead (s : State) (a : Nat) : Except FaultCause Int :=
  match memRead s a with
  | .ok (.numeric w) => .ok w
  | .ok (.raw _) => .error .nonNumericOperand
  | .error cause => .error cause

/-- `MemWrite(a, 1, c)` (R7, R36): the cell `a` becomes `c`; nothing is written out of range. -/
def memWrite (s : State) (a : Nat) (c : Cell) : Except FaultCause State :=
  if a < s.cfg.cap then .ok { s with mem := s.mem.write s.cfg.fill a c }
  else .error .addressOutOfRange

/-! ## Registers and run state -/

/-- `acc <- v` (R7, R10). -/
def State.setAcc (v : Int) (s : State) : State := { s with acc := v }

/-- Step 3 of the cycle: advance the program counter by one cell (R140, R11). -/
def State.advance (s : State) : State := { s with pc := s.pc + 1 }

/-- The net effect of a taken jump: the next cycle fetches at `a` (R140, R148, D11). -/
def State.jumpTo (a : Nat) (s : State) : State := { s with pc := a }

/-- `state <- Halted` (R146); step 3 is skipped. -/
def State.halt (s : State) : State := { s with state := .halted }

/-- `state <- Exhausted`, silently (R141). -/
def State.exhaust (s : State) : State := { s with state := .exhausted }

/-! ## Streams -/

/-- `Output(o)` (R7, R16). -/
def State.emit (o : OutputItem) (s : State) : State := { s with output := s.output ++ [o] }

/-- `warn(k)` and every other report: append one item to the diagnostic stream (R7, R163). -/
def State.warn (d : Diagnostic) (s : State) : State := { s with diag := s.diag ++ [d] }

/-- The rest of the input stream after READ took its item (R16, R103). -/
def State.withInput (rest : List InputItem) (s : State) : State := { s with input := rest }

/-! ## Taking a fault, and the way out of one -/

/-- TAKING A FAULT, `raise Fault(c)` (R7, R167): the run state becomes `Faulted(c)` and the item
`FaultReport(c, pc0)` is appended to the diagnostic stream. `acc`, `pc`, memory and the output keep
their values; there is no handler, no vector and no saved register. A meaning raises before it
writes anything, so `s.pc` is `pc0`. -/
def raiseFault (c : FaultCause) (s : State) : State :=
  { s with state := .faulted c, diag := s.diag ++ [.faultReport c s.pc] }

/-- `reset(N)` (R180, R181): the only way out of `Faulted`, as of `Halted` and `Exhausted` (R168);
there is no return from a fault. Memory and the streams are left alone. -/
def resetTo (origin : Nat) (s : State) : State :=
  { s with acc := 0, pc := origin, state := .running }

end Sys2Proof.Machine
end

