-- ==== Sys2Proof/Machine/Operands.lean ====
section
/-! DEFINITION. How an instruction uses its operand field `k` (30_encoding.md R53): the address of a
cell to read, the address of a cell to write, a literal, or a jump target. There is one addressing
mode for memory, direct. -/

namespace Sys2Proof.Machine

/-- Address of a cell to read, any kind of cell (WRITE, R101): continue with the cell or take the
fault of `MemRead`. -/
def withCell (k : Nat) (s : State) (f : Cell → State) : State :=
  match memRead s k with
  | .ok c => f c
  | .error cause => raiseFault cause s

/-- Address of a cell to read as a number (LOAD and opcodes 30 to 34, R38, R120): continue with the
number or take the fault of `NumRead`. -/
def withNumber (k : Nat) (s : State) (f : Int → State) : State :=
  match numRead s k with
  | .ok w => f w
  | .error cause => raiseFault cause s

/-- Address of a cell to write (READ, STORE): write and advance, or take the fault of `MemWrite`. -/
def storeCell (k : Nat) (c : Cell) (s : State) : State :=
  match memWrite s k c with
  | .ok t => t.advance
  | .error cause => raiseFault cause s

/-- A literal 0 to 99, used as the integer it is: no sign extension, no scaling (R53). -/
def literal (k : Nat) : Int := (k : Int)

end Sys2Proof.Machine
end

