-- ==== Sys2Proof/Machine/Flags.lean ====
section
/-! DEFINITION. The machine has no flags and no condition codes (10_state.md R22). What other
machines keep in flags is here: the two conditions JUMPN and JUMPZ test on the accumulator as it
stands, the range check on a result, and the zero divisor (43_arithmetic.md R120, R123). -/

namespace Sys2Proof.Machine

/-- The condition of JUMPN: accumulator < 0; zero is not negative (R144). -/
def accNegative (s : State) : Bool := decide (s.acc < 0)

/-- The condition of JUMPZ: accumulator = 0 (R145). -/
def accZero (s : State) : Bool := decide (s.acc = 0)

/-- The range check of ADD, SUBT, MULT and DIV (R120): an exact result outside -9999 to 9999 raises
`ArithRange` with no write to the accumulator; otherwise it is written and `pc` advances. -/
def finishChecked (r : Int) (s : State) : State :=
  if inRange r then (s.setAcc r).advance else raiseFault .arithRange s

/-- DIVIDE (R120, R123, R126): a zero divisor gives 0 with the warning `DivByZero(pc0)`; then the
range check, which R122 shows can never fire on a lawful accumulator (90_conflicts.md C12). -/
def divideBy (b : Int) (s : State) : State :=
  if b = 0 then finishChecked 0 (s.warn (.divByZero s.pc)) else finishChecked (tdiv s.acc b) s

/-- MODULO (R120, R123, R127): a zero divisor raises `ModZero`; there is no range check. -/
def moduloBy (b : Int) (s : State) : State :=
  if b = 0 then raiseFault .modZero s else (s.setAcc (tmod s.acc b)).advance

end Sys2Proof.Machine
end

