-- ==== Sys2Proof/Machine/Arithmetic.lean ====
section
/-! DEFINITION. The ten arithmetic instructions (43_arithmetic.md R120 to R133): the accumulator is
always the left operand and the destination. Order of the checks (R120, D26): the operand read, the
zero divisor, the range. -/

namespace Sys2Proof.Machine

/-! ## Memory-addressed -/

/-- ADD, opcode 30 (R124). -/
def execAdd (k : Nat) (s : State) : Result :=
  .next (withNumber k s fun b => finishChecked (s.acc + b) s)

/-- SUBT, opcode 31 (R125): accumulator minus memory. -/
def execSubt (k : Nat) (s : State) : Result :=
  .next (withNumber k s fun b => finishChecked (s.acc - b) s)

/-- DIV, opcode 32 (R126): accumulator divided by memory. -/
def execDiv (k : Nat) (s : State) : Result :=
  .next (withNumber k s fun b => divideBy b s)

/-- MOD, opcode 33 (R127): accumulator modulo memory. -/
def execMod (k : Nat) (s : State) : Result :=
  .next (withNumber k s fun b => moduloBy b s)

/-- MULT, opcode 34 (R128). -/
def execMult (k : Nat) (s : State) : Result :=
  .next (withNumber k s fun b => finishChecked (s.acc * b) s)

/-! ## Immediate -/

/-- ADDI, opcode 35 (R129). -/
def execAddi (k : Nat) (s : State) : Result :=
  .next (finishChecked (s.acc + literal k) s)

/-- SUBTI, opcode 36 (R130). -/
def execSubti (k : Nat) (s : State) : Result :=
  .next (finishChecked (s.acc - literal k) s)

/-- DIVI, opcode 37 (R131). -/
def execDivi (k : Nat) (s : State) : Result :=
  .next (divideBy (literal k) s)

/-- MODI, opcode 38 (R132). -/
def execModi (k : Nat) (s : State) : Result :=
  .next (moduloBy (literal k) s)

/-- MULTI, opcode 39 (R133). -/
def execMulti (k : Nat) (s : State) : Result :=
  .next (finishChecked (s.acc * literal k) s)

end Sys2Proof.Machine
end

