-- ==== Sys2Proof/Machine/Control.lean ====
section
/-! DEFINITION. Control transfer, HALT and the unknown-opcode path (44_control.md R143 to R148). -/

namespace Sys2Proof.Machine

/-- A conditional jump: taken, the next `pc` is `k`; untaken, `pc0 + 1` (R144, R145). -/
def branchIf (taken : Bool) (k : Nat) (s : State) : State :=
  if taken then s.jumpTo k else s.advance

/-- JUMP, opcode 40 (R143). The target is not checked in any way (R148). -/
def execJump (k : Nat) (s : State) : Result := .next (s.jumpTo k)

/-- JUMPN, opcode 41 (R144). -/
def execJumpn (k : Nat) (s : State) : Result := .next (branchIf (accNegative s) k s)

/-- JUMPZ, opcode 42 (R145). -/
def execJumpz (k : Nat) (s : State) : Result := .next (branchIf (accZero s) k s)

/-- HALT, opcode 43 (R146): `pc` stays at the HALT word; the operand digits are ignored (R56). -/
def execHalt (_k : Nat) (s : State) : Result := .next s.halt

/-- The unknown-opcode path (R147): a warning, and `pc` advances. No row of the opcode table, so no
arm of `exec`: the cycle takes it for every word the decoder rejects. -/
def unknownOpcodePath (op : Int) (s : State) : State :=
  (s.warn (.unknownOpcode op s.pc)).advance

end Sys2Proof.Machine
end

