-- ==== Sys2Proof/Machine/InputOutput.lean ====
section
/-! DEFINITION. The input and output instructions READ and WRITE (41_io.md R100 to R103). -/

namespace Sys2Proof.Machine

/-- READ with an item taken from the stream: the range test comes before the write (R100, R166). The
item is gone from the stream even when a fault follows (D13). -/
def acceptInput (k : Nat) (item : InputItem) (s : State) : State :=
  match item with
  | .inInt z => if inRange z then storeCell k (.numeric z) s else raiseFault .inputRange s
  | .inTok t => storeCell k (.raw t) s

/-- READ, opcode 10 (R100). With no input item the engine is held: the trigger changes nothing, the
run state stays `Running` and `pc` stays (R102; log entry 5). -/
def execRead (k : Nat) (s : State) : Result :=
  match s.input with
  | [] => .next s
  | item :: rest => .next (acceptInput k item (s.withInput rest))

/-- The output item that shows a cell: the number itself, or the raw token (R101, D14). -/
def outputOf (c : Cell) : OutputItem :=
  match c with
  | .numeric w => .outNum w
  | .raw t => .outRaw t

/-- WRITE, opcode 11 (R101): shows the memory cell, never the accumulator (R188). -/
def execWrite (k : Nat) (s : State) : Result :=
  .next (withCell k s fun c => (s.emit (outputOf c)).advance)

end Sys2Proof.Machine
end

