-- ==== Sys2Proof/Machine/LoadStore.lean ====
section
/-! DEFINITION. The load and store instructions LOAD, STORE and LOADI (42_load_store.md R110 to
R112). -/

namespace Sys2Proof.Machine

/-- LOAD, opcode 20 (R110). -/
def execLoad (k : Nat) (s : State) : Result :=
  .next (withNumber k s fun w => (s.setAcc w).advance)

/-- STORE, opcode 21 (R111). -/
def execStore (k : Nat) (s : State) : Result :=
  .next (storeCell k (.numeric s.acc) s)

/-- LOADI, opcode 22 (R112). -/
def execLoadi (k : Nat) (s : State) : Result :=
  .next (s.setAcc (literal k)).advance

end Sys2Proof.Machine
end

