-- ==== Sys2Proof/Machine/Dispatch.lean ====
section
/-! DEFINITION. The dispatch of the cycle (44_control.md R140, step 2), one arm per instruction. What
an arm answers is the state at the start of the NEXT cycle: step 3, the advance of the program
counter, is part of each meaning, as R8 and R11 state it per opcode. -/

namespace Sys2Proof.Machine

def exec (i : Instr) (s : State) : Host.Outcome State Fault Refusal :=
  match i with
  | .read k => Sys2Proof.Machine.execRead k s
  | .write k => Sys2Proof.Machine.execWrite k s
  | .load k => Sys2Proof.Machine.execLoad k s
  | .store k => Sys2Proof.Machine.execStore k s
  | .loadi k => Sys2Proof.Machine.execLoadi k s
  | .add k => Sys2Proof.Machine.execAdd k s
  | .subt k => Sys2Proof.Machine.execSubt k s
  | .div k => Sys2Proof.Machine.execDiv k s
  | .mod k => Sys2Proof.Machine.execMod k s
  | .mult k => Sys2Proof.Machine.execMult k s
  | .addi k => Sys2Proof.Machine.execAddi k s
  | .subti k => Sys2Proof.Machine.execSubti k s
  | .divi k => Sys2Proof.Machine.execDivi k s
  | .modi k => Sys2Proof.Machine.execModi k s
  | .multi k => Sys2Proof.Machine.execMulti k s
  | .jump k => Sys2Proof.Machine.execJump k s
  | .jumpn k => Sys2Proof.Machine.execJumpn k s
  | .jumpz k => Sys2Proof.Machine.execJumpz k s
  | .halt k => Sys2Proof.Machine.execHalt k s

end Sys2Proof.Machine
end

