-- ==== Sys2Proof/Machine/Cycle.lean ====
section
/-! DEFINITION. The fetch, the cycle and the trigger (44_control.md R140 to R142), and the placing of
a word where the next trigger fetches. -/

namespace Sys2Proof.Machine

/-- The fetch of R140: the cell at `pc` as a number, `UninitRead` or `NonNumericFetch`. -/
def fetchWord (s : State) : Except FaultCause Int :=
  match memRead s s.pc with
  | .ok (.numeric w) => .ok w
  | .ok (.raw _) => .error .nonNumericFetch
  | .error cause => .error cause

/-- What a fetched number does: its instruction's meaning, or the unknown-opcode path (R140, R147). -/
def runWord (w : Int) (s : State) : Result :=
  match decode w with
  | .ok i => exec i s
  | .error (.unknownOpcode op) => .next (unknownOpcodePath op s)

/-- One execution cycle (R140), for `state = Running` and `pc < CAP`. -/
def cycle (s : State) : Result :=
  match fetchWord s with
  | .ok w => runWord w s
  | .error cause => .next (raiseFault cause s)

/-- One external trigger, `step()` of R142: a terminal state absorbs it, `pc ≥ CAP` ends the run as
`Exhausted` with no fetch, and otherwise one cycle is performed. -/
def trigger (s : State) : Result :=
  if s.state ≠ .running then .next s
  else if s.cfg.cap ≤ s.pc then .next s.exhaust
  else cycle s

/-- Run-to-completion under fuel, `run()` of R141: at most `n` triggers while `state = Running`. -/
def drain (n : Nat) (s : State) : Result :=
  match n with
  | 0 => .next s
  | n + 1 =>
    if s.state ≠ .running then .next s
    else
      match trigger s with
      | .next t => drain n t
      | .fault r => .fault r
      | .refused r => .refused r

/-- The number `w` put in the cell the next trigger fetches. A fetch needs `state = Running` and
`pc < CAP`, so both are brought about where they do not hold; nothing else changes. -/
def placeFetchWord (w : Nat) (s : State) : State :=
  let p := if s.pc < s.cfg.cap then s.pc else 0
  { s with state := .running, pc := p, mem := s.mem.write s.cfg.fill p (.numeric (w : Int)) }

end Sys2Proof.Machine
end

