-- ==== Sys2Proof/Machine/Step.lean ====
section
/-! DEFINITION. The step of the machine: one external trigger of the Execution Engine (44_control.md
R142). -/

namespace Sys2Proof.Machine

/-- One step: `step()` of R142. -/
def step (s : State) : Host.Outcome State Fault Refusal := trigger s

/-- `s` with the table word `w` stored where `step` fetches its next instruction. The word is the
decimal number of the opcode table and fills one cell (log entry 4). -/
def State.withFetchWord (s : State) (_nbits w : Nat) : State := placeFetchWord w s

end Sys2Proof.Machine
end

