-- ==== Sys2Proof/Machine/Lexer.lean ====
section
/-! DEFINITION. The text classifier in front of the Assembler's scans (30_encoding.md R58 to R63): the
mnemonic table, tokens, lexical classes, and the class of a line. -/

namespace Sys2Proof.Machine

/-! ## Mnemonics -/

/-- The fixed table of 28 spellings for the 19 opcodes (R58). -/
def mnemonicTable : List (String × Nat) :=
  [("READ", 10), ("WRITE", 11), ("LOAD", 20), ("LOADM", 20), ("STORE", 21), ("LOADI", 22),
   ("ADD", 30), ("ADDM", 30), ("SUBT", 31), ("SUBTM", 31), ("DIV", 32), ("DIVM", 32),
   ("MOD", 33), ("MODM", 33), ("MULT", 34), ("MULTM", 34), ("ADDI", 35), ("SUBTI", 36),
   ("DIVI", 37), ("MODI", 38), ("MULTI", 39), ("JUMP", 40), ("JMP", 40), ("JUMPN", 41),
   ("JMPN", 41), ("JUMPZ", 42), ("JMPZ", 42), ("HALT", 43)]

/-- A text in capitals, for the case-insensitive comparison of mnemonics (R58). -/
def upper (t : Text) : Text := t.map Char.toUpper

/-- The opcode a mnemonic token selects, in any mix of cases (R58, R76). -/
def opcodeOf (t : Text) : Option Nat :=
  (mnemonicTable.find? fun e => decide (e.1.toList = upper t)).map Prod.snd

/-- Every opcode but HALT bears an operand (R58). -/
def bearsOperand (op : Nat) : Bool := decide (op ≠ 43)

/-! ## Tokens -/

/-- The characters that separate tokens: spaces and tabs (R59). -/
def isSeparator (c : Char) : Bool := decide (c = ' ') || decide (c = '\t')

/-- The text without leading and trailing spaces and tabs (R59). -/
def trim (t : Text) : Text :=
  ((t.dropWhile isSeparator).reverse.dropWhile isSeparator).reverse

/-- Put the token collected so far, held back to front, before the tokens that follow. -/
def closeToken (current : Text) (rest : List Text) : List Text :=
  if current.isEmpty then rest else current.reverse :: rest

/-- The tokens of a text, `current` holding the open token back to front: split at runs of spaces
and tabs, and `=` a token by itself (R59). -/
def tokensFrom (t current : Text) : List Text :=
  match t with
  | [] => closeToken current []
  | c :: cs =>
    if isSeparator c then closeToken current (tokensFrom cs [])
    else if c = '=' then closeToken current (['='] :: tokensFrom cs [])
    else tokensFrom cs (c :: current)

/-- The tokens of a line (R59). -/
def tokens (line : Text) : List Text := tokensFrom line []

/-! ## Lexical classes -/

/-- A letter or `_`, the first character of an identifier (R61; letters are ASCII, log entry 6). -/
def isNameStart (c : Char) : Bool := c.isAlpha || decide (c = '_')

/-- A letter, a digit or `_` (R61). -/
def isNameChar (c : Char) : Bool := isNameStart c || c.isDigit

/-- An identifier: a letter or `_` followed by any number of letters, digits and `_` (R61). -/
def isIdentifier (t : Text) : Bool :=
  match t with
  | [] => false
  | c :: cs => isNameStart c && cs.all isNameChar

/-- The value of a text of decimal digits. -/
def digitsValue (t : Text) : Nat := t.foldl (fun n c => n * 10 + (c.toNat - 48)) 0

/-- A literal operand: one or more decimal digits with no sign (R61, R78a). -/
def parseLiteral (t : Text) : Option Nat :=
  if !t.isEmpty && t.all Char.isDigit then some (digitsValue t) else none

/-- An integer as an initial value: an optional sign and one or more decimal digits (R61). -/
def parseInteger (t : Text) : Option Int :=
  match t with
  | [] => none
  | c :: cs =>
    if c = '-' then (parseLiteral cs).map fun n : Nat => -(n : Int)
    else if c = '+' then (parseLiteral cs).map fun n : Nat => (n : Int)
    else (parseLiteral (c :: cs)).map fun n : Nat => (n : Int)

/-! ## Classification -/

/-- The value of a declaration whose first token is `name`, if the tokens are one of the three
surface forms and the name is an identifier that is no mnemonic (R60 step 4, D17). -/
def declaredValue (name : Text) (rest : List Text) : Option Int :=
  if isIdentifier name && (opcodeOf name).isNone then
    match rest with
    | [] => some 0
    | [v] => parseInteger v
    | [e, v] => if e = ['='] then parseInteger v else none
    | _ => none
  else none

/-- The trimmed text begins with `//` (R60 step 2). -/
def isComment (t : Text) : Bool := t.take 2 == ['/', '/']

/-- The trimmed text ends with a colon (R60 step 3). -/
def isLabelLine (t : Text) : Bool := t.getLast? == some ':'

/-- The class of a line; the tests are made in this order and the first that holds decides (R60). -/
def classify (line : Text) : LineClass :=
  match tokens line with
  | [] => .blank
  | tok :: rest =>
    if isComment (trim line) then .comment
    else if isLabelLine (trim line) then .labelDef (trim (trim line).dropLast)
    else
      match declaredValue tok rest with
      | some v => .varDecl tok v
      | none => .instr tok rest

end Sys2Proof.Machine
end

