-- ==== Sys2Proof/Machine/Assembler.lean ====
section
/-! DEFINITION. The Assembler (40_allocator_resolver.md R70 to R86): scan 1A with the data-address
allocator, scan 1B with the label counter, scan 2 with resolution and encoding, the image, and the
whole as one total function of the line list. -/

namespace Sys2Proof.Machine

/-! ## Failure and the shape of a scan -/

/-- A failed assembly: exactly one reason, and no words (R85, R20). Warnings raised before it stay
reported. -/
def AsmState.fail (r : AsmFailure) (st : AsmState) : AsmState :=
  { st with phase := .failed r, words := [] }

/-- A scan: every line in order, front to back (R70), stopping at the first failure (R76, D23). The
error side is the state of the failed assembly. -/
def scanLines (f : AsmState → LineClass → Except AsmState AsmState) (ls : List LineClass)
    (st : AsmState) : Except AsmState AsmState :=
  match ls with
  | [] => .ok st
  | l :: rest =>
    match f st l with
    | .ok st' => scanLines f rest st'
    | .error bad => .error bad

/-! ## Scan 1A -/

/-- The symbol table's entry for a name (R17). -/
def AsmState.lookupVar (st : AsmState) (name : Text) : Option VarEntry :=
  st.vars.find? fun v => decide (v.name = name)

/-- A first declaration gets the next data address (R71). -/
def AsmState.declare (name : Text) (value : Int) (st : AsmState) : AsmState :=
  { st with
    vars := st.vars ++ [{ name := name, address := st.nextData, value := value }]
    nextData := st.nextData + 1 }

/-- Scan 1A's work on one line (R71): a re-declaration is ignored and not checked (R82). -/
def declareLine (st : AsmState) (l : LineClass) : Except AsmState AsmState :=
  match l with
  | .blank => .ok st
  | .comment => .ok st
  | .labelDef _ => .ok st
  | .varDecl name value =>
    if (st.lookupVar name).isSome then .ok st
    else if inRange value then .ok (st.declare name value)
    else .error (st.fail (.initValueRange name value))
  | .instr _ _ => .ok st

/-! ## Scan 1B -/

/-- Bind a label; a name already bound gets the new address (R73, R18). -/
def bindLabel (name : Text) (address : Nat) (labels : List (Text × Nat)) : List (Text × Nat) :=
  match labels with
  | [] => [(name, address)]
  | e :: rest =>
    if e.1 = name then (name, address) :: rest else e :: bindLabel name address rest

/-- Scan 1B's work on one line (R73, R77c). An instruction line counts whatever its mnemonic. -/
def labelLine (st : AsmState) (l : LineClass) : Except AsmState AsmState :=
  match l with
  | .blank => .ok st
  | .comment => .ok st
  | .labelDef name =>
    if isIdentifier name then .ok { st with labels := bindLabel name st.nextInstr st.labels }
    else .error (st.fail .malformedLine)
  | .varDecl _ _ => .ok st
  | .instr _ _ => .ok { st with nextInstr := st.nextInstr + 1 }

/-! ## Scan 2 -/

/-- Operand resolution in the order literal, label, variable (R78); `none` is an undefined symbol. -/
def resolve (st : AsmState) (t : Text) : Option Nat :=
  match parseLiteral t with
  | some n => some n
  | none =>
    match st.labels.lookup t with
    | some a => some a
    | none => (st.lookupVar t).map VarEntry.address

/-- Append the word of the instruction line to the instruction list (R75, R80). -/
def AsmState.emitWord (op k : Nat) (st : AsmState) : AsmState :=
  { st with words := st.words ++ [encodeWord op k], nextWord := st.nextWord + 1 }

/-- An undefined symbol is reported and 0 stands for it (R79). -/
def AsmState.warnUndefined (t : Text) (st : AsmState) : AsmState :=
  { st with warnings := st.warnings ++ [.undefinedSymbol t] }

/-- Resolve the operand token of an operand-bearing opcode, check its size and encode (R78 to R81). -/
def encodeOperand (op : Nat) (t : Text) (st : AsmState) : Except AsmState AsmState :=
  match resolve st t with
  | none => .ok ((st.warnUndefined t).emitWord op 0)
  | some k =>
    if k ≤ operandMax then .ok (st.emitWord op k)
    else .error (st.fail (.operandOverflow t k))

/-- Scan 2's work on an instruction line, in the order mnemonic, shape, operand, size, encode (R75).
HALT allows and ignores one operand token (R77). -/
def encodeLine (mnemonic : Text) (operands : List Text) (st : AsmState) :
    Except AsmState AsmState :=
  match opcodeOf mnemonic with
  | none => .error (st.fail (.unknownMnemonic mnemonic))
  | some op =>
    if 1 < operands.length then .error (st.fail .malformedLine)
    else if bearsOperand op then
      match operands with
      | [] => .error (st.fail .missingOperand)
      | t :: _ => encodeOperand op t st
    else .ok (st.emitWord op 0)

/-- Scan 2's work on one line (R75). -/
def wordLine (st : AsmState) (l : LineClass) : Except AsmState AsmState :=
  match l with
  | .blank => .ok st
  | .comment => .ok st
  | .labelDef _ => .ok st
  | .varDecl _ _ => .ok st
  | .instr mnemonic operands => encodeLine mnemonic operands st

/-! ## The whole algorithm -/

/-- Enter scan 1A from empty tables (R71). -/
def enterScan1A : AsmState := { AsmState.start with phase := .scan1A }

/-- Enter scan 1B: the instruction counter is seeded at the origin N, the number of distinct
declared variables (R72, R73). -/
def AsmState.enterScan1B (st : AsmState) : AsmState :=
  { st with phase := .scan1B, nextInstr := st.nextData }

/-- Enter scan 2: its own counter starts again at N (R19). -/
def AsmState.enterScan2 (st : AsmState) : AsmState :=
  { st with phase := .scan2, nextWord := st.nextData }

/-- The image of a completed scan 2 (R20, R83). -/
def AsmState.toImage (st : AsmState) : Image :=
  { origin := st.nextData, data := st.vars.map VarEntry.value, words := st.words, vars := st.vars,
    labels := st.labels, warnings := st.warnings }

/-- The end of a completed scan 2. -/
def AsmState.finish (st : AsmState) : AsmState := { st with phase := .image st.toImage }

/-- The Assembler over already classified lines (R86, D25): the three scans in this order (R74). -/
def assembleClasses (ls : List LineClass) : AsmState :=
  match scanLines declareLine ls enterScan1A with
  | .error bad => bad
  | .ok a =>
    match scanLines labelLine ls a.enterScan1B with
    | .error bad => bad
    | .ok b =>
      match scanLines wordLine ls b.enterScan2 with
      | .error bad => bad
      | .ok c => c.finish

/-- The Assembler as one function of the text lines (R86, R70). -/
def assemble (lines : List Text) : AsmState := assembleClasses (lines.map classify)

/-- What an assembly reports on the diagnostic stream, in order: its warnings, then the reason if it
failed (R70, D15). -/
def AsmState.reports (st : AsmState) : List Diagnostic :=
  st.warnings.map (fun w => match w with | .undefinedSymbol t => .undefinedSymbol t) ++
    match st.phase with
    | .failed r => [.assemblyFailed r]
    | _ => []

end Sys2Proof.Machine
end

