-- ==== Sys2Proof/Machine/HostPort.lean ====
section
/-! DEFINITION. What the surroundings may do to the machine (decision D1, 70_reset_and_hazards.md R180
to R185): supply input, read the registers and cells, assemble, load, reset. `resetTo` itself stands
in Ops.lean beside fault entry. -/

namespace Sys2Proof.Machine

/-- The memory capacity query (D1, R15). -/
def capacity (s : State) : Nat := s.cfg.cap

/-- What the host may look at between cycles (R170): `acc`, `pc`, `state`, and every cell. -/
def visible (s : State) : Int × Nat × RunState × List (Option Cell) :=
  (s.acc, s.pc, s.state, (List.range s.cfg.cap).map s.cellAt)

/-- The host supplies an input item, at the end of the stream (R102, D13). -/
def supplyInput (item : InputItem) (s : State) : State := { s with input := s.input ++ [item] }

/-- Assemble a line list (D1, R70). The Assembler's diagnostics go to the diagnostic stream (D15);
nothing of the engine changes. -/
def assembleLines (lines : List Text) (s : State) : State :=
  let a := assemble lines
  { s with asm := a, diag := s.diag ++ a.reports }

/-- Why the loader starts no run. -/
inductive LoadRefusal where
  /-- N + M > CAP: the image does not fit and the engine is not started (R84, D22). -/
  | imageTooLarge
  /-- The last assembly gave no image: "the Driver must not attempt to load or run code from a failed
  assembly" (R85, R183). -/
  | noImage
  deriving DecidableEq, Repr

/-- The memory an image makes (R84): the data words from 0, the instruction words from N, FILL
everywhere else. -/
def imageMemory (fill : Option Cell) (img : Image) : Memory :=
  Memory.writeWords fill (Memory.writeWords fill [] 0 img.data) img.origin img.words

/-- The loader (R84): put the image into Memory and reset the engine with its origin, or refuse an
image that does not fit. Streams and tables are left alone (R181). -/
def loadImage (img : Image) (s : State) : Except LoadRefusal State :=
  if img.origin + img.words.length ≤ s.cfg.cap then
    .ok (resetTo img.origin { s with mem := imageMemory s.cfg.fill img })
  else .error .imageTooLarge

/-- Load what the last assembly produced (R183). -/
def boot (s : State) : Except LoadRefusal State :=
  match s.asm.phase with
  | .image img => loadImage img s
  | .start => .error .noImage
  | .scan1A => .error .noImage
  | .scan1B => .error .noImage
  | .scan2 => .error .noImage
  | .failed _ => .error .noImage

end Sys2Proof.Machine
end

