-- ==== Sys2Proof/Machine/TextForm.lean ====
section
/-! DEFINITION. The text form of a word (00_scope.md R6) and of an image's data words (R83). -/

namespace Sys2Proof.Machine

/-- The character of a decimal digit. -/
def digitChar (d : Nat) : Char := Char.ofNat (48 + d)

/-- The value of a decimal digit character. -/
def digitOf (c : Char) : Option Nat := if c.isDigit then some (c.toNat - 48) else none

/-- Exactly four decimal digits, padded on the left with zeros, for `n ≤ 9999` (R4, R6). -/
def fourDigits (n : Nat) : Text :=
  [digitChar (n / 1000), digitChar (n / 100 % 10), digitChar (n / 10 % 10), digitChar (n % 10)]

/-- `render(w)`: the absolute value in four digits, a minus sign in front when negative (R6). -/
def render (w : Int) : Text :=
  if w < 0 then '-' :: fourDigits w.natAbs else fourDigits w.natAbs

/-- The value of four digit characters. -/
def parseDigits (a b c d : Char) : Option Nat :=
  match digitOf a, digitOf b, digitOf c, digitOf d with
  | some p, some q, some r, some s => some (p * 1000 + q * 100 + r * 10 + s)
  | _, _, _, _ => none

/-- `parse`, the inverse of `render` (R6): there is one zero and no "-0000". -/
def parse (t : Text) : Option Int :=
  match t with
  | [a, b, c, d] => (parseDigits a b c d).map fun n : Nat => (n : Int)
  | ['-', a, b, c, d] =>
    match parseDigits a b c d with
    | some n => if n = 0 then none else some (-(n : Int))
    | none => none
  | _ => none

/-- The texts of an image's words in memory order: the data region, then the instruction region
(R83). -/
def imageText (img : Image) : List Text := (img.data ++ img.words).map render

end Sys2Proof.Machine
end

