-- ==== Sys2Proof/Safety.lean ====
section
/-! DEFINITION. What counts as a good run, the invariant of the machine, and the terms the statements
are written in. The terms follow the spec's words and not the model's definitions, so that a
statement compares the two. -/

namespace Sys2Proof.Machine

/-! ## The end of a run -/

/-- A run has ended when `state` is `Halted`, `Faulted(c)` or `Exhausted` (R185). -/
abbrev Ended (s : State) : Prop := s.state ≠ .running

/-- Only `Halted` is a good end (R185, R168). -/
abbrev EndedWell (s : State) : Prop := s.state = .halted

/-- The next trigger performs a cycle that fetches the number `w` (R140). -/
abbrev AtWord (s : State) (w : Int) : Prop :=
  s.state = .running ∧ s.pc < s.cfg.cap ∧ s.cellAt s.pc = some (.numeric w)

/-- The next trigger performs a cycle that runs the instruction `i` (R140, R52). -/
abbrev AtInstr (s : State) (i : Instr) : Prop := ∃ w, AtWord s w ∧ decode w = .ok i

/-- The engine is held at a READ with no input item (R102). -/
abbrev Held (s : State) : Prop := ∃ k, AtInstr s (.read k) ∧ s.input = []

/-- A run that is safe so far: it has not faulted. -/
abbrev NotFaulted (s : State) : Prop := ∀ c, s.state ≠ .faulted c

/-- `n` single steps one after the other, whatever the run state (R142). -/
def steps (n : Nat) (s : State) : Result :=
  match n with
  | 0 => .next s
  | n + 1 =>
    match step s with
    | .next t => steps n t
    | .fault r => .fault r
    | .refused r => .refused r

/-! ## The invariant -/

/-- An input item is lawful (R5, D13): a token has at least one character. -/
def InputItem.wf : InputItem → Bool
  | .inInt _ => true
  | .inTok t => !t.isEmpty

/-- An output item is lawful (R16): a number is a `Word`, a token has at least one character. -/
def OutputItem.wf : OutputItem → Bool
  | .outNum w => inRange w
  | .outRaw t => !t.isEmpty

/-- The invariant of the machine: the parameters are lawful (R3); `-9999 ≤ acc ≤ 9999` (R10); `pc` is
in its domain, 0 to max(CAP, 99) (R11); memory is in canonical form with lawful cells below `CAP`
(R15); the streams hold lawful items (R16). -/
abbrev Inv (s : State) : Prop :=
  s.cfg.wf = true ∧ inRange s.acc = true ∧ s.pc ≤ max s.cfg.cap 99 ∧ Memory.wf s.cfg s.mem ∧
    (∀ i ∈ s.input, i.wf = true) ∧ (∀ o ∈ s.output, o.wf = true)

/-! ## Faults -/

/-- What fault entry leaves (R167), written out: `Faulted(c)` and one report, nothing else. -/
def faultedWith (c : FaultCause) (s : State) : State :=
  { s with state := .faulted c, diag := s.diag ++ [.faultReport c s.pc] }

/-- `t` differs from `s` in memory, if at all, only at the cell `k`, which now holds `c`. -/
abbrev StoresCell (s : State) (k : Nat) (c : Cell) (t : State) : Prop :=
  t.cellAt k = some c ∧ ∀ a, a ≠ k → t.cellAt a = s.cellAt a

/-- The opcodes that read a cell as a number: LOAD and 30 to 34 (R38). -/
def readsNumber : Instr → Bool
  | .load _ | .add _ | .subt _ | .div _ | .mod _ | .mult _ => true
  | .read _ | .write _ | .store _ | .loadi _ | .addi _ | .subti _ | .divi _ | .modi _
  | .multi _ | .jump _ | .jumpn _ | .jumpz _ | .halt _ => false

/-- The opcodes that read a cell: those and WRITE (R39). -/
def readsCell : Instr → Bool
  | .write _ => true
  | i => readsNumber i

/-- The second operand of an arithmetic opcode (R120), if the instruction is one and it can be read:
the number in the cell for 30 to 34, the literal for 35 to 39. -/
def secondOperand (s : State) : Instr → Option Int
  | .add k | .subt k | .div k | .mod k | .mult k =>
    if k < s.cfg.cap then
      match s.cellAt k with
      | some (.numeric b) => some b
      | some (.raw _) => none
      | none => none
    else none
  | .addi k | .subti k | .divi k | .modi k | .multi k => some (k : Int)
  | .read _ | .write _ | .load _ | .store _ | .loadi _ | .jump _ | .jumpn _ | .jumpz _
  | .halt _ => none

/-- The exact result the range check is applied to (R120): ADD, SUBT, MULT and DIV in both forms;
MOD has none. -/
def checkedResult (a b : Int) : Instr → Option Int
  | .add _ | .addi _ => some (a + b)
  | .subt _ | .subti _ => some (a - b)
  | .mult _ | .multi _ => some (a * b)
  | .div _ | .divi _ => some (if b = 0 then 0 else a.tdiv b)
  | .mod _ | .modi _ | .read _ | .write _ | .load _ | .store _ | .loadi _ | .jump _ | .jumpn _
  | .jumpz _ | .halt _ => none

/-- The runtime fault table (R160) with the order of the checks (R166): the cycle that begins in `s`,
Running with `pc < CAP`, raises the cause `c`. -/
inductive FaultsWith (s : State) : FaultCause → Prop where
  /-- The fetch of a cell that holds no value. -/
  | fetchUninit (h : s.cellAt s.pc = none) : FaultsWith s .uninitRead
  /-- The fetch of a raw token. -/
  | fetchRaw (t : Token) (h : s.cellAt s.pc = some (.raw t)) : FaultsWith s .nonNumericFetch
  /-- READ takes an integer outside the range. -/
  | inputRange (k : Nat) (z : Int) (rest : List InputItem) (hi : AtInstr s (.read k))
      (hs : s.input = .inInt z :: rest) (hz : z < -9999 ∨ 9999 < z) : FaultsWith s .inputRange
  /-- READ takes a storable item and its address does not exist. -/
  | readAddress (k : Nat) (item : InputItem) (rest : List InputItem) (hi : AtInstr s (.read k))
      (hs : s.input = item :: rest) (hz : ∀ z, item = .inInt z → -9999 ≤ z ∧ z ≤ 9999)
      (hk : s.cfg.cap ≤ k) : FaultsWith s .addressOutOfRange
  /-- STORE to an address that does not exist. -/
  | storeAddress (k : Nat) (hi : AtInstr s (.store k)) (hk : s.cfg.cap ≤ k) :
      FaultsWith s .addressOutOfRange
  /-- A read of an address that does not exist. -/
  | operandAddress (i : Instr) (hi : AtInstr s i) (hr : readsCell i = true)
      (hk : s.cfg.cap ≤ i.operand) : FaultsWith s .addressOutOfRange
  /-- A read of a cell that holds no value. -/
  | operandUninit (i : Instr) (hi : AtInstr s i) (hr : readsCell i = true)
      (hk : i.operand < s.cfg.cap) (hc : s.cellAt i.operand = none) : FaultsWith s .uninitRead
  /-- A number is needed and the cell holds a raw token. -/
  | operandRaw (i : Instr) (t : Token) (hi : AtInstr s i) (hr : readsNumber i = true)
      (hk : i.operand < s.cfg.cap) (hc : s.cellAt i.operand = some (.raw t)) :
      FaultsWith s .nonNumericOperand
  /-- MOD or MODI with second operand 0. -/
  | modZero (i : Instr) (hi : AtInstr s i) (hm : i.opcode = 33 ∨ i.opcode = 38)
      (hb : secondOperand s i = some 0) : FaultsWith s .modZero
  /-- An exact result outside the range. -/
  | arithRange (i : Instr) (b r : Int) (hi : AtInstr s i) (hb : secondOperand s i = some b)
      (hr : checkedResult s.acc b i = some r) (hz : r < -9999 ∨ 9999 < r) :
      FaultsWith s .arithRange

/-! ## Terms about one instruction -/

/-- The instruction `mk k` has opcode `op`: exactly the words `op*100 + k` with `k` from 0 to 99
decode to it (R50, R52, R54). -/
abbrev HasEncoding (op : Nat) (mk : Nat → Instr) : Prop :=
  ∀ (w : Int) (k : Nat), decode w = .ok (mk k) ↔ (k ≤ 99 ∧ w = (op : Int) * 100 + (k : Int))

/-- The opcode `op` is selected by exactly these spellings, in any mix of cases (R58). -/
abbrev SpelledBy (op : Nat) (names : List String) : Prop :=
  ∀ t : Text, opcodeOf t = some op ↔ ∃ n ∈ names, t.map Char.toUpper = n.toList

/-- The faults of an opcode that reads the cell `k`, whatever it then does with it (R36, R37). -/
abbrev FaultsOnAbsentCell (mk : Nat → Instr) : Prop :=
  ∀ (k : Nat) (s : State),
    (s.cfg.cap ≤ k → exec (mk k) s = .next (faultedWith .addressOutOfRange s)) ∧
    (k < s.cfg.cap → s.cellAt k = none → exec (mk k) s = .next (faultedWith .uninitRead s))

/-- The faults of an opcode that reads the cell `k` as a number (R36, R37, R38). -/
abbrev FaultsOnNoNumber (mk : Nat → Instr) : Prop :=
  FaultsOnAbsentCell mk ∧
    ∀ (k : Nat) (t : Token) (s : State), k < s.cfg.cap → s.cellAt k = some (.raw t) →
      exec (mk k) s = .next (faultedWith .nonNumericOperand s)

/-! ## Terms about the text of a line -/

/-- A space or a tab (R59). -/
abbrev IsBlank (c : Char) : Prop := c = ' ' ∨ c = '\t'

/-- A text of spaces and tabs only. -/
abbrev AllBlank (t : Text) : Prop := ∀ c ∈ t, IsBlank c

/-- The tokens of a text (R59): blanks separate and are dropped, `=` is a token by itself, and a token
of other characters goes on until a blank, a `=` or the end. -/
inductive Tokenized : Text → List Text → Prop where
  /-- Nothing is left. -/
  | done : Tokenized [] []
  /-- A space or a tab. -/
  | gap (c : Char) (rest : Text) (ts : List Text) (hc : IsBlank c) (h : Tokenized rest ts) :
      Tokenized (c :: rest) ts
  /-- A `=`, whether or not blanks surround it. -/
  | equals (rest : Text) (ts : List Text) (h : Tokenized rest ts) :
      Tokenized ('=' :: rest) (['='] :: ts)
  /-- A longest run of other characters. -/
  | word (w rest : Text) (ts : List Text) (hw : w ≠ []) (hc : ∀ c ∈ w, ¬ IsBlank c ∧ c ≠ '=')
      (hr : ∀ c, rest.head? = some c → IsBlank c ∨ c = '=') (h : Tokenized rest ts) :
      Tokenized (w ++ rest) (w :: ts)

/-- `t` is `line` without its leading and trailing spaces and tabs (R59). -/
abbrev TrimsTo (line t : Text) : Prop :=
  (∃ pre post, AllBlank pre ∧ AllBlank post ∧ line = pre ++ t ++ post) ∧
    (∀ c, t.head? = some c → ¬ IsBlank c) ∧ (∀ c, t.getLast? = some c → ¬ IsBlank c)

/-- The trimmed line begins with `//` (R60 step 2). -/
abbrev CommentText (line : Text) : Prop := ∃ rest, TrimsTo line ('/' :: '/' :: rest)

/-- The trimmed line ends with a colon, and `name` is the text before it, trimmed (R60 step 3). -/
abbrev LabelText (line name : Text) : Prop :=
  ∃ body, TrimsTo line (body ++ [':']) ∧ TrimsTo body name

/-- A letter or `_`, then letters, digits and `_` (R61; ASCII, log entry 6). -/
abbrev IdentifierText (t : Text) : Prop :=
  ∃ c cs, t = c :: cs ∧ (c.isAlpha = true ∨ c = '_') ∧
    ∀ d ∈ cs, d.isAlpha = true ∨ d.isDigit = true ∨ d = '_'

/-- One or more decimal digits and no sign (R61). -/
abbrev LiteralText (t : Text) : Prop := t ≠ [] ∧ t.all Char.isDigit = true

/-- The number a text of decimal digits stands for, the last digit the units. -/
def decimalValue (t : Text) : Nat := Nat.ofDigits 10 (t.reverse.map fun c => c.toNat - '0'.toNat)

/-- The text is an integer with the value `v`: an optional sign before decimal digits (R61). -/
abbrev IntegerText (t : Text) (v : Int) : Prop :=
  ∃ ds, LiteralText ds ∧
    ((t = ds ∧ v = (decimalValue ds : Int)) ∨ (t = '+' :: ds ∧ v = (decimalValue ds : Int)) ∨
      (t = '-' :: ds ∧ v = -(decimalValue ds : Int)))

/-- The tokens `tok :: rest` are one of the three surface forms of a declaration of `tok` with the
value `v`, and `tok` is an identifier that is no mnemonic (R60 step 4). -/
abbrev DeclarationTokens (tok : Text) (rest : List Text) (v : Int) : Prop :=
  IdentifierText tok ∧ opcodeOf tok = none ∧
    ((rest = [] ∧ v = 0) ∨ ∃ t, (rest = [t] ∨ rest = [['='], t]) ∧ IntegerText t v)

/-- The classification of a line, its five tests in the order of R60, each with the failure of those
before it. -/
inductive Classified (line : Text) : LineClass → Prop where
  /-- Test 1: no tokens. -/
  | blank (h : Tokenized line []) : Classified line .blank
  /-- Test 2: `//`. A line that begins so has a token. -/
  | comment (h : CommentText line) : Classified line .comment
  /-- Test 3: a colon at the end. -/
  | labelDef (name : Text) (hc : ¬ CommentText line) (h : LabelText line name) :
      Classified line (.labelDef name)
  /-- Test 4: a declaration. -/
  | varDecl (tok : Text) (rest : List Text) (v : Int) (ht : Tokenized line (tok :: rest))
      (hc : ¬ CommentText line) (hl : ∀ name, ¬ LabelText line name)
      (h : DeclarationTokens tok rest v) : Classified line (.varDecl tok v)
  /-- Test 5: every other line. -/
  | instr (tok : Text) (rest : List Text) (ht : Tokenized line (tok :: rest))
      (hc : ¬ CommentText line) (hl : ∀ name, ¬ LabelText line name)
      (hd : ∀ v, ¬ DeclarationTokens tok rest v) : Classified line (.instr tok rest)

/-! ## Terms about an assembly -/

/-- The line is an instruction line. -/
def isInstrLine : LineClass → Bool
  | .instr _ _ => true
  | .blank | .comment | .labelDef _ | .varDecl _ _ => false

/-- The line is a variable declaration. -/
def isVarLine : LineClass → Bool
  | .varDecl _ _ => true
  | .blank | .comment | .labelDef _ | .instr _ _ => false

/-- The line is an instruction line or a label definition. -/
def isCodeLine : LineClass → Bool
  | .instr _ _ | .labelDef _ => true
  | .blank | .comment | .varDecl _ _ => false

/-- The declarations of a program in line order, repeated ones included (R71). -/
def declarations (ls : List LineClass) : List (Text × Int) :=
  ls.filterMap fun l =>
    match l with
    | .varDecl name value => some (name, value)
    | .blank | .comment | .labelDef _ | .instr _ _ => none

/-- The value of an operand token by R78, in the order literal, label, variable; `none` is an
undefined symbol (R79). -/
def operandValue (labels : List (Text × Nat)) (vars : List VarEntry) (t : Text) : Option Nat :=
  if LiteralText t then some (decimalValue t)
  else (labels.lookup t).or ((vars.find? fun v => decide (v.name = t)).map VarEntry.address)

/-- The warning an instruction line raises in a completed scan 2 (R79): none for HALT, whose operand
is ignored (R77). -/
def warningOf (img : Image) : LineClass → Option AsmWarning
  | .instr m [t] =>
    if opcodeOf m ≠ some 43 ∧ operandValue img.labels img.vars t = none then
      some (.undefinedSymbol t)
    else none
  | .instr _ _ | .blank | .comment | .labelDef _ | .varDecl _ _ => none

/-- What scan 1A refuses (R82): first declarations with a value outside the range. -/
def valueProblems (ls : List LineClass) : List AsmFailure :=
  ((declarations ls).filter fun d =>
    (declarations ls).lookup d.1 == some d.2 && decide (d.2 < -9999 ∨ 9999 < d.2)).map
      fun d => .initValueRange d.1 d.2

/-- What scan 1B refuses (R77c): a label name that is no identifier. -/
def labelProblem : LineClass → Option AsmFailure
  | .labelDef name => if isIdentifier name then none else some .malformedLine
  | .blank | .comment | .varDecl _ _ | .instr _ _ => none

/-- What scan 2 refuses on one line, in the order mnemonic, shape, operand present, size (R76, R77,
R81). -/
def instrProblem (labels : List (Text × Nat)) (vars : List VarEntry) : LineClass → Option AsmFailure
  | .instr m ts =>
    if opcodeOf m = none then some (.unknownMnemonic m)
    else if 1 < ts.length then some .malformedLine
    else if opcodeOf m = some 43 then none
    else
      match ts with
      | [] => some .missingOperand
      | t :: _ =>
        match operandValue labels vars t with
        | some k => if 99 < k then some (.operandOverflow t k) else none
        | none => none
  | .blank | .comment | .labelDef _ | .varDecl _ _ => none

/-- Everything the Assembler refuses in a program, in the order it is met: scan 1A, scan 1B, scan 2,
within a scan in line order (R161). -/
def problems (labels : List (Text × Nat)) (vars : List VarEntry) (ls : List LineClass) :
    List AsmFailure :=
  valueProblems ls ++ ls.filterMap labelProblem ++ ls.filterMap (instrProblem labels vars)

/-- The launch premises of R184: the engine right after the image was loaded and the engine reset
with its origin, on empty histories. -/
abbrev Launched (img : Image) (s : State) : Prop :=
  s.state = .running ∧ s.acc = 0 ∧ s.pc = img.origin ∧ s.mem = imageMemory s.cfg.fill img ∧
    s.output = [] ∧ s.diag = []

end Sys2Proof.Machine
end

