-- ==== Sys2Proof/Certificates/Slice0/Obligations.lean ====
section
/-! DEFINITION. The statements for the provers. Each docstring names the rules of spec/ a statement
formalises; a clause that rests on a choice of the model names its log entry. -/

open Sys2Proof Sys2Proof.Machine

/-! ## Encoding and decoding -/

/-- R65: decode and encode agree. Every well-formed instruction decodes from its word, and every word
that decodes at all is the word of the well-formed instruction it decodes to. -/
def Obligations.DecodeInvertsEncode : Prop :=
  (∀ i : Instr, i.wf = true → decode (encode i) = .ok i) ∧
  (∀ (w : Int) (i : Instr), decode w = .ok i → i.wf = true ∧ encode i = w)

/-- R55 and R147: exactly the listed words are no instruction, and each takes the unknown-opcode
path: a warning with the opcode field and the address, nothing else changed, `pc` advanced. For a
negative word the spec leaves the reported field open (R52, J19), so the statement does too. -/
def Obligations.UnassignedWordsTakeTheUnknownOpcodePath : Prop :=
  (∀ w : Int, -9999 ≤ w → w ≤ 9999 →
    ((∀ i, decode w ≠ .ok i) ↔
      ((0 ≤ w ∧ w ≤ 999) ∨ (1200 ≤ w ∧ w ≤ 1999) ∨ (2300 ≤ w ∧ w ≤ 2999) ∨ 4400 ≤ w ∨ w < 0))) ∧
  (∀ (s : State) (w : Int), AtWord s w → (∀ i, decode w ≠ .ok i) →
    ∃ op : Int, (0 ≤ w → op = w / 100) ∧
      step s = .next { s with pc := s.pc + 1, diag := s.diag ++ [.unknownOpcode op s.pc] })

/-- Words written out from the format D4 (R50) decode to the instruction they stand for, and two
unassigned ones to none: a sanity check. -/
def Obligations.SampleWordsDecode : Prop :=
  decode 1000 = .ok (.read 0) ∧ decode 1101 = .ok (.write 1) ∧ decode 2007 = .ok (.load 7) ∧
  decode 3001 = .ok (.add 1) ∧ decode 3999 = .ok (.multi 99) ∧ decode 4210 = .ok (.jumpz 10) ∧
  decode 4300 = .ok (.halt 0) ∧ decode 4399 = .ok (.halt 99) ∧
  (∀ i, decode 1200 ≠ .ok i) ∧ (∀ i, decode (-2007) ≠ .ok i)

/-- R56: the words 4301 to 4399 are HALT exactly as 4300 is, and the Assembler produces only 4300. -/
def Obligations.HaltIgnoresItsOperandDigits : Prop :=
  (∀ (s : State) (w : Int), AtWord s w → 4300 ≤ w → w ≤ 4399 →
    step s = .next { s with state := .halted }) ∧
  (∀ (lines : List Text) (img : Image), (assemble lines).phase = .image img →
    ∀ w ∈ img.words, 4300 ≤ w → w = 4300)

/-! ## The cycle and the trigger -/

/-- R140: when the cell at `pc` holds a word that decodes to `i`, a step is `exec i` and nothing is
added around it (the advance of `pc` is part of each meaning). -/
def Obligations.StepRunsTheDecodedInstruction : Prop :=
  ∀ (s : State) (w : Int) (i : Instr), AtWord s w → decode w = .ok i → step s = exec i s

/-- R142: the single-step primitive. A terminal state absorbs the trigger; `pc` at or beyond `CAP`
gives `Exhausted` with nothing else changed; otherwise the trigger is one cycle; and
run-to-completion passes through the same states as repeated single steps. -/
def Obligations.TriggerIsTheStepPrimitive : Prop :=
  (∀ s : State, s.state ≠ .running → step s = .next s) ∧
  (∀ s : State, s.state = .running → s.cfg.cap ≤ s.pc →
    step s = .next { s with state := .exhausted }) ∧
  (∀ s : State, s.state = .running → s.pc < s.cfg.cap → step s = cycle s) ∧
  (∀ (n : Nat) (s : State), drain n s = steps n s)

/-- R140 with decisions D4 and D8: the fetch of a cell that holds no number faults, `pc` unchanged. -/
def Obligations.FetchOfNoNumberFaults : Prop :=
  ∀ s : State, s.state = .running → s.pc < s.cfg.cap →
    (s.cellAt s.pc = none → step s = .next (faultedWith .uninitRead s)) ∧
    (∀ t : Token, s.cellAt s.pc = some (.raw t) → step s = .next (faultedWith .nonNumericFetch s))

/-- Every step of every state answers a next state. For a trigger that finds a READ with an empty input
this is the model's choice: R102 gives no step there, and the model answers the state it began in (log
entry 5). That a runtime fault is a next state and not a stop of the model is read from R12 and R167
(log entry 10). -/
def Obligations.StepAlwaysAnswersANextState : Prop :=
  ∀ s : State, ∃ t : State, step s = .next t

/-- R12: the transitions of the run state, row by row. -/
def Obligations.RunStateFollowsItsTransitionTable : Prop :=
  (∀ s t : State, step s = .next t →
    (s.state ≠ .running → t = s) ∧
    (s.state = .running →
      (t.state = .exhausted ↔ s.cfg.cap ≤ s.pc) ∧
      (t.state = .halted ↔ ∃ w, AtWord s w ∧ 4300 ≤ w ∧ w ≤ 4399) ∧
      (∀ c, t.state = .faulted c ↔ (s.pc < s.cfg.cap ∧ FaultsWith s c)))) ∧
  (∀ (n : Nat) (s : State), (resetTo n s).state = .running)

/-! ## Whole-machine rules -/

/-- The invariant of the machine (R10, R11, R15, R16) is kept by every step, from every state that
meets it. -/
def Obligations.StepKeepsTheInvariant : Prop :=
  ∀ s t : State, Inv s → step s = .next t → Inv t

/-- The state after reset meets the invariant. -/
def Obligations.ResetMeetsTheInvariant : Prop := Inv State.reset

/-- What the surroundings may do keeps the invariant (R180, R183, D1): supplying a lawful input item,
resetting with an origin in the domain of `pc`, and assembling, loading and resetting. -/
def Obligations.HostCallsKeepTheInvariant : Prop :=
  (∀ (s : State) (item : InputItem), Inv s → item.wf = true → Inv (supplyInput item s)) ∧
  (∀ (s : State) (n : Nat), Inv s → n ≤ max s.cfg.cap 99 → Inv (resetTo n s)) ∧
  (∀ (s : State) (lines : List Text), Inv s → Inv (assembleLines lines s)) ∧
  (∀ (s t : State) (lines : List Text), Inv s → boot (assembleLines lines s) = .ok t → Inv t)

/-- R169: the engine never touches the Assembler's tables; nor can any step change the parameters
(R3). -/
def Obligations.EngineNeverTouchesTablesOrParameters : Prop :=
  ∀ s t : State, step s = .next t → t.asm = s.asm ∧ t.cfg = s.cfg

/-- R103: READ takes exactly the first input item, also when it then faults; WRITE emits exactly one
item unless it faults, and then none; no other instruction touches either stream. -/
def Obligations.StreamsMoveOnlyByReadAndWrite : Prop :=
  ∀ s t : State, step s = .next t →
    (∀ k, AtInstr s (.read k) → t.input = s.input.tail ∧ t.output = s.output) ∧
    (∀ k, AtInstr s (.write k) → t.input = s.input ∧
      (t.state = .running → ∃ o, t.output = s.output ++ [o]) ∧
      (t.state ≠ .running → t.output = s.output)) ∧
    ((∀ k, ¬ AtInstr s (.read k)) → t.input = s.input) ∧
    ((∀ k, ¬ AtInstr s (.write k)) → t.output = s.output)

/-- R39: a step changes at most the one cell a READ or a STORE names; every other step leaves every
cell as it was. -/
def Obligations.OnlyReadAndStoreWriteMemory : Prop :=
  ∀ (s t : State) (a : Nat), step s = .next t → t.cellAt a ≠ s.cellAt a →
    AtInstr s (.read a) ∨ AtInstr s (.store a)

/-- R10: the accumulator is written by LOAD, LOADI and the ten arithmetic opcodes, and by nothing
else. -/
def Obligations.OnlyLoadsAndArithmeticWriteTheAccumulator : Prop :=
  ∀ s t : State, step s = .next t → t.acc ≠ s.acc →
    ∃ i, AtInstr s i ∧ (i.opcode = 20 ∨ i.opcode = 22 ∨ (30 ≤ i.opcode ∧ i.opcode ≤ 39))

/-- R11: where the program counter goes. A step of a Running engine that stays Running advances it by
one, or takes a jump to the jump's operand, or is held at a READ and changes nothing; a step that ends
the run leaves it. The hold as a step that changes nothing is the model's choice (log entry 5). -/
def Obligations.ProgramCounterAdvancesJumpsOrStays : Prop :=
  ∀ s t : State, s.state = .running → step s = .next t →
    (t.state ≠ .running → t.pc = s.pc) ∧
    (t.state = .running →
      t.pc = s.pc + 1 ∨
      (∃ k, t.pc = k ∧ (AtInstr s (.jump k) ∨ (AtInstr s (.jumpn k) ∧ s.acc < 0) ∨
        (AtInstr s (.jumpz k) ∧ s.acc = 0))) ∨
      (Held s ∧ t = s))

/-- R167: faults are precise. A step that faults changes the run state and appends one report;
accumulator, program counter, memory, output, tables and parameters are as before; only READ's input
item may be gone. -/
def Obligations.FaultsArePrecise : Prop :=
  ∀ (s t : State) (c : FaultCause), s.state = .running → step s = .next t →
    t.state = .faulted c →
    t = { s with state := .faulted c, diag := s.diag ++ [.faultReport c s.pc], input := t.input } ∧
    (t.input = s.input ∨ ∃ k item, AtInstr s (.read k) ∧ s.input = item :: t.input)

/-- R160 and R166: a cycle raises a cause exactly when the fault table says so, in its order of
checks; at most one cause applies. -/
def Obligations.FaultCausesAreExactlyTheTable : Prop :=
  (∀ (s t : State) (c : FaultCause), s.state = .running → s.pc < s.cfg.cap → step s = .next t →
    (t.state = .faulted c ↔ FaultsWith s c)) ∧
  (∀ (s : State) (c d : FaultCause), FaultsWith s c → FaultsWith s d → c = d)

/-! ## Input and output -/

/-- R100: READ, with an input item present. -/
def Obligations.ReadStoresTheNextInputItem : Prop :=
  HasEncoding 10 .read ∧ SpelledBy 10 ["READ"] ∧
  (∀ (k : Nat) (z : Int) (rest : List InputItem) (s : State), s.input = .inInt z :: rest →
    -9999 ≤ z → z ≤ 9999 → k < s.cfg.cap →
    ∃ t, exec (.read k) s = .next t ∧ StoresCell s k (.numeric z) t ∧
      t = { s with mem := t.mem, input := rest, pc := s.pc + 1 }) ∧
  (∀ (k : Nat) (x : Token) (rest : List InputItem) (s : State), s.input = .inTok x :: rest →
    k < s.cfg.cap →
    ∃ t, exec (.read k) s = .next t ∧ StoresCell s k (.raw x) t ∧
      t = { s with mem := t.mem, input := rest, pc := s.pc + 1 }) ∧
  (∀ (k : Nat) (z : Int) (rest : List InputItem) (s : State), s.input = .inInt z :: rest →
    (z < -9999 ∨ 9999 < z) →
    exec (.read k) s = .next (faultedWith .inputRange { s with input := rest })) ∧
  (∀ (k : Nat) (item : InputItem) (rest : List InputItem) (s : State), s.input = item :: rest →
    (∀ z, item = .inInt z → -9999 ≤ z ∧ z ≤ 9999) → s.cfg.cap ≤ k →
    exec (.read k) s = .next (faultedWith .addressOutOfRange { s with input := rest }))

/-- R102: the READ stall. A held engine is held for ever by itself, in `Running`, with nothing
changed; a READ waits exactly when there is no item; an item from the host lifts the hold. That a
held trigger is a step that changes nothing is the model's choice (log entry 5). -/
def Obligations.ReadWaitsForInput : Prop :=
  (∀ (s : State) (n : Nat), Held s → drain n s = .next s) ∧
  (∀ (s : State) (k : Nat), AtInstr s (.read k) → (step s = .next s ↔ s.input = [])) ∧
  (∀ (s : State) (item : InputItem), Held s → ¬ Held (supplyInput item s) ∧
    ∃ t, step (supplyInput item s) = .next t ∧ t.input = [])

/-- R101: WRITE shows the memory cell and never the accumulator. -/
def Obligations.WriteEmitsTheCell : Prop :=
  HasEncoding 11 .write ∧ SpelledBy 11 ["WRITE"] ∧ FaultsOnAbsentCell .write ∧
  (∀ (k : Nat) (w : Int) (s : State), k < s.cfg.cap → s.cellAt k = some (.numeric w) →
    exec (.write k) s = .next { s with output := s.output ++ [.outNum w], pc := s.pc + 1 }) ∧
  (∀ (k : Nat) (t : Token) (s : State), k < s.cfg.cap → s.cellAt k = some (.raw t) →
    exec (.write k) s = .next { s with output := s.output ++ [.outRaw t], pc := s.pc + 1 })

/-! ## Load and store -/

/-- R110: LOAD. -/
def Obligations.LoadCopiesTheCell : Prop :=
  HasEncoding 20 .load ∧ SpelledBy 20 ["LOAD", "LOADM"] ∧ FaultsOnNoNumber .load ∧
  (∀ (k : Nat) (w : Int) (s : State), k < s.cfg.cap → s.cellAt k = some (.numeric w) →
    exec (.load k) s = .next { s with acc := w, pc := s.pc + 1 })

/-- R111: STORE. -/
def Obligations.StoreWritesTheAccumulator : Prop :=
  HasEncoding 21 .store ∧ SpelledBy 21 ["STORE"] ∧
  (∀ (k : Nat) (s : State), k < s.cfg.cap →
    ∃ t, exec (.store k) s = .next t ∧ StoresCell s k (.numeric s.acc) t ∧
      t = { s with mem := t.mem, pc := s.pc + 1 }) ∧
  (∀ (k : Nat) (s : State), s.cfg.cap ≤ k →
    exec (.store k) s = .next (faultedWith .addressOutOfRange s))

/-- R112: LOADI. -/
def Obligations.LoadiSetsTheLiteral : Prop :=
  HasEncoding 22 .loadi ∧ SpelledBy 22 ["LOADI"] ∧
  (∀ (k : Nat) (s : State),
    exec (.loadi k) s = .next { s with acc := (k : Int), pc := s.pc + 1 })

/-! ## Arithmetic, memory-addressed -/

/-- R124: ADD. -/
def Obligations.AddAddsTheCell : Prop :=
  HasEncoding 30 .add ∧ SpelledBy 30 ["ADD", "ADDM"] ∧ FaultsOnNoNumber .add ∧
  (∀ (k : Nat) (b : Int) (s : State), k < s.cfg.cap → s.cellAt k = some (.numeric b) →
    (-9999 ≤ s.acc + b → s.acc + b ≤ 9999 →
      exec (.add k) s = .next { s with acc := s.acc + b, pc := s.pc + 1 }) ∧
    (s.acc + b < -9999 ∨ 9999 < s.acc + b →
      exec (.add k) s = .next (faultedWith .arithRange s)))

/-- R125: SUBT, accumulator minus memory. -/
def Obligations.SubtSubtractsTheCell : Prop :=
  HasEncoding 31 .subt ∧ SpelledBy 31 ["SUBT", "SUBTM"] ∧ FaultsOnNoNumber .subt ∧
  (∀ (k : Nat) (b : Int) (s : State), k < s.cfg.cap → s.cellAt k = some (.numeric b) →
    (-9999 ≤ s.acc - b → s.acc - b ≤ 9999 →
      exec (.subt k) s = .next { s with acc := s.acc - b, pc := s.pc + 1 }) ∧
    (s.acc - b < -9999 ∨ 9999 < s.acc - b →
      exec (.subt k) s = .next (faultedWith .arithRange s)))

/-- R126: DIV, accumulator divided by memory, rounded toward zero (`Int.tdiv` is Lean's truncating
quotient); a zero divisor gives 0 and a warning; the range check never fires on a lawful
accumulator. -/
def Obligations.DivDividesByTheCell : Prop :=
  HasEncoding 32 .div ∧ SpelledBy 32 ["DIV", "DIVM"] ∧ FaultsOnNoNumber .div ∧
  (∀ (k : Nat) (b : Int) (s : State), k < s.cfg.cap → s.cellAt k = some (.numeric b) →
    (b = 0 → exec (.div k) s =
      .next { s with acc := 0, pc := s.pc + 1, diag := s.diag ++ [.divByZero s.pc] }) ∧
    (b ≠ 0 → -9999 ≤ s.acc.tdiv b → s.acc.tdiv b ≤ 9999 →
      exec (.div k) s = .next { s with acc := s.acc.tdiv b, pc := s.pc + 1 }) ∧
    (b ≠ 0 → s.acc.tdiv b < -9999 ∨ 9999 < s.acc.tdiv b →
      exec (.div k) s = .next (faultedWith .arithRange s))) ∧
  (∀ a b : Int, -9999 ≤ a → a ≤ 9999 → -9999 ≤ a.tdiv b ∧ a.tdiv b ≤ 9999)

/-- R127: MOD, with the sign of the dividend (`Int.tmod` is Lean's truncating remainder); a zero
divisor faults. -/
def Obligations.ModTakesTheRemainderByTheCell : Prop :=
  HasEncoding 33 .mod ∧ SpelledBy 33 ["MOD", "MODM"] ∧ FaultsOnNoNumber .mod ∧
  (∀ (k : Nat) (b : Int) (s : State), k < s.cfg.cap → s.cellAt k = some (.numeric b) →
    (b = 0 → exec (.mod k) s = .next (faultedWith .modZero s)) ∧
    (b ≠ 0 → exec (.mod k) s = .next { s with acc := s.acc.tmod b, pc := s.pc + 1 }))

/-- R128: MULT. -/
def Obligations.MultMultipliesByTheCell : Prop :=
  HasEncoding 34 .mult ∧ SpelledBy 34 ["MULT", "MULTM"] ∧ FaultsOnNoNumber .mult ∧
  (∀ (k : Nat) (b : Int) (s : State), k < s.cfg.cap → s.cellAt k = some (.numeric b) →
    (-9999 ≤ s.acc * b → s.acc * b ≤ 9999 →
      exec (.mult k) s = .next { s with acc := s.acc * b, pc := s.pc + 1 }) ∧
    (s.acc * b < -9999 ∨ 9999 < s.acc * b →
      exec (.mult k) s = .next (faultedWith .arithRange s)))

/-! ## Arithmetic, immediate -/

/-- R129: ADDI, on every accumulator that is not below the range (R10: on every lawful one). -/
def Obligations.AddiAddsTheLiteral : Prop :=
  HasEncoding 35 .addi ∧ SpelledBy 35 ["ADDI"] ∧
  (∀ (k : Nat) (s : State), -9999 ≤ s.acc →
    (s.acc + (k : Int) ≤ 9999 →
      exec (.addi k) s = .next { s with acc := s.acc + (k : Int), pc := s.pc + 1 }) ∧
    (9999 < s.acc + (k : Int) → exec (.addi k) s = .next (faultedWith .arithRange s)))

/-- R130: SUBTI, on every accumulator that is not above the range (R10: on every lawful one). -/
def Obligations.SubtiSubtractsTheLiteral : Prop :=
  HasEncoding 36 .subti ∧ SpelledBy 36 ["SUBTI"] ∧
  (∀ (k : Nat) (s : State), s.acc ≤ 9999 →
    (-9999 ≤ s.acc - (k : Int) →
      exec (.subti k) s = .next { s with acc := s.acc - (k : Int), pc := s.pc + 1 }) ∧
    (s.acc - (k : Int) < -9999 → exec (.subti k) s = .next (faultedWith .arithRange s)))

/-- R131: DIVI, rounded toward zero (R121), on every lawful accumulator (R10); a zero literal gives 0
and a warning; it never faults. -/
def Obligations.DiviDividesByTheLiteral : Prop :=
  HasEncoding 37 .divi ∧ SpelledBy 37 ["DIVI"] ∧
  (∀ (k : Nat) (s : State), -9999 ≤ s.acc → s.acc ≤ 9999 →
    (k = 0 → exec (.divi k) s =
      .next { s with acc := 0, pc := s.pc + 1, diag := s.diag ++ [.divByZero s.pc] }) ∧
    (k ≠ 0 →
      exec (.divi k) s = .next { s with acc := s.acc.tdiv (k : Int), pc := s.pc + 1 }))

/-- R132: MODI. -/
def Obligations.ModiTakesTheRemainderByTheLiteral : Prop :=
  HasEncoding 38 .modi ∧ SpelledBy 38 ["MODI"] ∧
  (∀ (k : Nat) (s : State),
    (k = 0 → exec (.modi k) s = .next (faultedWith .modZero s)) ∧
    (k ≠ 0 →
      exec (.modi k) s = .next { s with acc := s.acc.tmod (k : Int), pc := s.pc + 1 }))

/-- R133: MULTI. -/
def Obligations.MultiMultipliesByTheLiteral : Prop :=
  HasEncoding 39 .multi ∧ SpelledBy 39 ["MULTI"] ∧
  (∀ (k : Nat) (s : State),
    (-9999 ≤ s.acc * (k : Int) → s.acc * (k : Int) ≤ 9999 →
      exec (.multi k) s = .next { s with acc := s.acc * (k : Int), pc := s.pc + 1 }) ∧
    (s.acc * (k : Int) < -9999 ∨ 9999 < s.acc * (k : Int) →
      exec (.multi k) s = .next (faultedWith .arithRange s)))

/-- R121: the quotient and remainder of the model are the ones of the rule's formulas, with the
properties the rule states of them, and agree with flooring on non-negative operands. -/
def Obligations.DivisionTruncatesTowardZero : Prop :=
  ∀ a b : Int, b ≠ 0 →
    tdiv a b = a.tdiv b ∧ tmod a b = a.tmod b ∧
    a = b * tdiv a b + tmod a b ∧ (tmod a b).natAbs < b.natAbs ∧
    (tmod a b = 0 ∨ (tmod a b).sign = a.sign) ∧
    (0 ≤ a → 0 < b → tdiv a b = a / b ∧ tmod a b = a % b)

/-- R122: which range checks can fire. The bounds of the exact results over lawful operands, and no
DIV, DIVI, MOD or MODI ever ends a lawful run with `ArithRange`. -/
def Obligations.QuotientsAndRemaindersNeverLeaveTheRange : Prop :=
  (∀ a b : Int, inRange a = true → inRange b = true →
    (-19998 ≤ a + b ∧ a + b ≤ 19998) ∧ (-19998 ≤ a - b ∧ a - b ≤ 19998) ∧
    (-99980001 ≤ a * b ∧ a * b ≤ 99980001) ∧
    (b ≠ 0 → (tdiv a b).natAbs ≤ a.natAbs ∧ (tmod a b).natAbs < b.natAbs)) ∧
  (∀ (s t : State) (i : Instr), Inv s → AtInstr s i →
    (i.opcode = 32 ∨ i.opcode = 33 ∨ i.opcode = 37 ∨ i.opcode = 38) → step s = .next t →
    t.state ≠ .faulted .arithRange)

/-! ## Control -/

/-- R143: JUMP. -/
def Obligations.JumpGoesToItsOperand : Prop :=
  HasEncoding 40 .jump ∧ SpelledBy 40 ["JUMP", "JMP"] ∧
  (∀ (k : Nat) (s : State), exec (.jump k) s = .next { s with pc := k })

/-- R144: JUMPN. -/
def Obligations.JumpnTestsForNegative : Prop :=
  HasEncoding 41 .jumpn ∧ SpelledBy 41 ["JUMPN", "JMPN"] ∧
  (∀ (k : Nat) (s : State),
    (s.acc < 0 → exec (.jumpn k) s = .next { s with pc := k }) ∧
    (0 ≤ s.acc → exec (.jumpn k) s = .next { s with pc := s.pc + 1 }))

/-- R145: JUMPZ. -/
def Obligations.JumpzTestsForZero : Prop :=
  HasEncoding 42 .jumpz ∧ SpelledBy 42 ["JUMPZ", "JMPZ"] ∧
  (∀ (k : Nat) (s : State),
    (s.acc = 0 → exec (.jumpz k) s = .next { s with pc := k }) ∧
    (s.acc ≠ 0 → exec (.jumpz k) s = .next { s with pc := s.pc + 1 }))

/-- R146: HALT. `pc` stays at the HALT word, and no further cycle is performed. -/
def Obligations.HaltStopsTheEngine : Prop :=
  HasEncoding 43 .halt ∧ SpelledBy 43 ["HALT"] ∧
  (∀ (k : Nat) (s : State), exec (.halt k) s = .next { s with state := .halted }) ∧
  (∀ s : State, s.state = .halted → step s = .next s)

/-! ## Memory -/

/-- R36 and R40: a write to an address below `CAP` changes exactly that cell, a later read sees it,
and nothing else of the state changes; at or beyond `CAP` neither primitive does anything but
fault. -/
def Obligations.CellReadsSeeTheLatestWrite : Prop :=
  (∀ (s : State) (a : Nat) (c : Cell), a < s.cfg.cap →
    ∃ t, memWrite s a c = .ok t ∧ memRead t a = .ok c ∧
      (∀ b, b ≠ a → memRead t b = memRead s b) ∧ t = { s with mem := t.mem }) ∧
  (∀ (s : State) (a : Nat) (c : Cell), s.cfg.cap ≤ a →
    memRead s a = .error .addressOutOfRange ∧ memWrite s a c = .error .addressOutOfRange)

/-- Two memories in canonical form that read the same everywhere are equal data (R15): the
representation holds nothing but the cells. -/
def Obligations.CanonicalMemoriesAreExtensional : Prop :=
  ∀ (cfg : Config) (m n : Memory), Memory.wf cfg m → Memory.wf cfg n →
    (∀ a, m.read cfg.fill a = n.read cfg.fill a) → m = n

/-- R42: a store is seen by the very next fetch. After a STORE or a READ into the cell at `pc + 1`,
the next step runs what was just written there. -/
def Obligations.FetchSeesTheStoreBeforeIt : Prop :=
  ∀ s t : State, s.pc + 1 < s.cfg.cap → step s = .next t →
    (AtInstr s (.store (s.pc + 1)) → ∀ i, decode s.acc = .ok i → step t = exec i t) ∧
    (∀ z rest, AtInstr s (.read (s.pc + 1)) → s.input = .inInt z :: rest →
      -9999 ≤ z → z ≤ 9999 → ∀ i, decode z = .ok i → step t = exec i t) ∧
    (∀ x rest, AtInstr s (.read (s.pc + 1)) → s.input = .inTok x :: rest →
      step t = .next (faultedWith .nonNumericFetch t))

/-! ## Reset, loading and the boot -/

/-- R180: reset with origin N, and it is the only transition that leaves a terminal state: no step
does, and neither supplying input nor assembling touches the run state (a load ends in a reset). -/
def Obligations.ResetIsTheOnlyWayOutOfATerminalState : Prop :=
  (∀ (n : Nat) (s : State), resetTo n s = { s with acc := 0, pc := n, state := .running }) ∧
  (∀ s t : State, s.state ≠ .running → step s = .next t → t.state = s.state) ∧
  (∀ (s : State) (item : InputItem), (supplyInput item s).state = s.state) ∧
  (∀ (s : State) (lines : List Text), (assembleLines lines s).state = s.state)

/-- R21: the state right after reset with nothing loaded. That the origin is then 0 is the model's
choice (log entry 3); that the parameters are CAP 100 and FILL Uninit is the spec's recommendation
(log entries 1 and 2). -/
def Obligations.PowerOnStateIsTheResetTable : Prop :=
  State.reset.acc = 0 ∧ State.reset.pc = 0 ∧ State.reset.state = .running ∧
  (∀ a, State.reset.cellAt a = State.reset.cfg.fill) ∧ State.reset.output = [] ∧
  State.reset.diag = [] ∧ State.reset.input = [] ∧ State.reset.asm.vars = [] ∧
  State.reset.asm.labels = [] ∧ State.reset.asm.nextData = 0 ∧
  State.reset.cfg = { cap := 100, fill := none }

/-- R84: loading. An image that fits is laid out cell by cell, FILL follows it, the engine is reset
with its origin and nothing else changes; an image that does not fit is refused. -/
def Obligations.LoaderLaysOutTheImage : Prop :=
  ∀ (img : Image) (s : State), img.data.length = img.origin →
    (img.origin + img.words.length ≤ s.cfg.cap →
      ∃ t, loadImage img s = .ok t ∧
        (∀ (i : Nat) (w : Int), img.data[i]? = some w → t.cellAt i = some (.numeric w)) ∧
        (∀ (j : Nat) (w : Int), img.words[j]? = some w →
          t.cellAt (img.origin + j) = some (.numeric w)) ∧
        (∀ a, img.origin + img.words.length ≤ a → t.cellAt a = s.cfg.fill) ∧
        t = { s with acc := 0, pc := img.origin, state := .running, mem := t.mem }) ∧
    (s.cfg.cap < img.origin + img.words.length → loadImage img s = .error .imageTooLarge)

/-- R183 and R184, both agents together: an assembled image that fits boots; the first step of a
program that has an instruction runs the instruction its first word encodes; and from empty
histories, with no assembly warning, the boot reaches the launch premises of R184. That an assembly
warning would stand in the diagnostic history at launch is the model's choice (log entry 13). -/
def Obligations.AssembledProgramStartsAtItsFirstInstruction : Prop :=
  (∀ (s : State) (lines : List Text) (img : Image) (w : Int) (rest : List Int),
    (assemble lines).phase = .image img → img.words = w :: rest →
    img.origin + img.words.length ≤ s.cfg.cap →
    ∃ t i, boot (assembleLines lines s) = .ok t ∧ decode w = .ok i ∧ step t = exec i t) ∧
  (∀ (s : State) (lines : List Text) (img : Image),
    (assemble lines).phase = .image img → img.warnings = [] →
    img.origin + img.words.length ≤ s.cfg.cap → s.output = [] → s.diag = [] →
    ∃ t, boot (assembleLines lines s) = .ok t ∧ Launched img t)

/-! ## The Assembler -/

/-- R85 and R86: every line list yields exactly one of an image and a failure; a failure has no words
and nothing is loaded from it. -/
def Obligations.AssemblyEndsInAnImageOrAFailure : Prop :=
  (∀ lines : List Text,
    (∃ img, (assemble lines).phase = .image img) ∨
    (∃ r, (assemble lines).phase = .failed r ∧ (assemble lines).words = [])) ∧
  (∀ (s : State) (r : AsmFailure), s.asm.phase = .failed r → boot s = .error .noImage)

/-- R71 and R72: the allocator. The origin is the number of distinct declared variables, the variable
at position `i` has address `i`, the variables stand in first-declaration order, and each keeps the
value of its first declaration. -/
def Obligations.VariablesGetAddressesInFirstDeclarationOrder : Prop :=
  ∀ (lines : List Text) (img : Image), (assemble lines).phase = .image img →
    img.origin = img.vars.length ∧ img.data = img.vars.map VarEntry.value ∧
    (img.vars.map VarEntry.name).Nodup ∧
    (∀ name, name ∈ img.vars.map VarEntry.name ↔
      name ∈ (declarations (lines.map classify)).map Prod.fst) ∧
    (∀ (i : Nat) (v : VarEntry), img.vars[i]? = some v → v.address = i ∧
      (declarations (lines.map classify)).lookup v.name = some v.value) ∧
    (∀ (i j : Nat) (u v : VarEntry), i < j → img.vars[i]? = some u → img.vars[j]? = some v →
      ((declarations (lines.map classify)).map Prod.fst).idxOf u.name <
        ((declarations (lines.map classify)).map Prod.fst).idxOf v.name)

/-- R73: a name is bound to `a` exactly when `a` is the origin plus the number of instruction lines
before the LAST label line of that name. -/
def Obligations.LabelsBindToTheNextInstruction : Prop :=
  ∀ (lines : List Text) (img : Image), (assemble lines).phase = .image img →
    ∀ (name : Text) (a : Nat), img.labels.lookup name = some a ↔
      ∃ before after, lines.map classify = before ++ .labelDef name :: after ∧
        .labelDef name ∉ after ∧ a = img.origin + (before.filter isInstrLine).length

/-- R87: facts (1) to (6) about every image. -/
def Obligations.EveryImageIsWellFormed : Prop :=
  (∀ (lines : List Text) (img : Image), (assemble lines).phase = .image img →
    img.words.length = ((lines.map classify).filter isInstrLine).length ∧
    (assemble lines).nextInstr = img.origin + img.words.length ∧
    (∀ w ∈ img.words, 1000 ≤ w ∧ w ≤ 4399 ∧ ∃ i, decode w = .ok i ∧ i.operand ≤ 99) ∧
    (∀ name a, img.labels.lookup name = some a →
      img.origin ≤ a ∧ a ≤ img.origin + img.words.length) ∧
    (∀ v ∈ img.vars, v.address < img.origin)) ∧
  (∀ l₁ l₂ : List Text,
    (l₁.map classify).filter isVarLine = (l₂.map classify).filter isVarLine →
    (l₁.map classify).filter isCodeLine = (l₂.map classify).filter isCodeLine →
    assemble l₁ = assemble l₂)

/-- R75 to R81: what scan 2 does with one instruction line, in the order mnemonic, shape, operand
(literal, then label, then variable, else 0 with a warning), size, encoding. The states it goes to are
written out: the word is put at the end of the list, and a failure has no words (R85). -/
def Obligations.InstructionLinesResolveAndEncodeInOrder : Prop :=
  ∀ (m t : Text) (st : AsmState),
    (∀ ts, wordLine st (.instr m ts) = encodeLine m ts st) ∧
    (opcodeOf m = none → ∀ ts, encodeLine m ts st =
      .error { st with phase := .failed (.unknownMnemonic m), words := [] }) ∧
    (∀ op, opcodeOf m = some op →
      (∀ ts, 1 < ts.length →
        encodeLine m ts st = .error { st with phase := .failed .malformedLine, words := [] }) ∧
      (op = 43 → ∀ ts, ts = [] ∨ ts = [t] → encodeLine m ts st =
        .ok { st with words := st.words ++ [4300], nextWord := st.nextWord + 1 }) ∧
      (op ≠ 43 →
        encodeLine m [] st = .error { st with phase := .failed .missingOperand, words := [] } ∧
        (∀ k, resolve st t = some k → k ≤ 99 → encodeLine m [t] st =
          .ok { st with
            words := st.words ++ [(op : Int) * 100 + (k : Int)], nextWord := st.nextWord + 1 }) ∧
        (∀ k, resolve st t = some k → 99 < k → encodeLine m [t] st =
          .error { st with phase := .failed (.operandOverflow t k), words := [] }) ∧
        (resolve st t = none → encodeLine m [t] st =
          .ok { st with
            words := st.words ++ [(op : Int) * 100], nextWord := st.nextWord + 1,
            warnings := st.warnings ++ [.undefinedSymbol t] }))) ∧
    resolve st t = operandValue st.labels st.vars t ∧
    (LiteralText t → resolve st t = some (decimalValue t)) ∧
    (¬ LiteralText t → ∀ a, st.labels.lookup t = some a → resolve st t = some a) ∧
    (¬ LiteralText t → st.labels.lookup t = none → ∀ v ∈ st.vars, v.name = t →
      (st.vars.map VarEntry.name).Nodup → resolve st t = some v.address) ∧
    (¬ LiteralText t → st.labels.lookup t = none → (∀ v ∈ st.vars, v.name ≠ t) →
      resolve st t = none)

/-- R75, R80 and R83: what the words of an image ARE. The j-th instruction line gives the j-th word,
`op*100 + k` with `op` the opcode of its mnemonic and `k` 0 for HALT, else the value of its one operand
token in the image's own tables, 0 for an undefined symbol; there are no other words; and the warnings
are the undefined symbols in line order. The image's text is the data words and then these words, each
in the four-digit form. -/
def Obligations.ImageWordsAreTheEncodedInstructionLines : Prop :=
  ∀ (lines : List Text) (img : Image), (assemble lines).phase = .image img →
    img.words.length = ((lines.map classify).filter isInstrLine).length ∧
    (∀ (j : Nat) (m : Text) (ts : List Text),
      ((lines.map classify).filter isInstrLine)[j]? = some (.instr m ts) →
      ∃ op k : Nat, opcodeOf m = some op ∧ k ≤ 99 ∧
        img.words[j]? = some ((op : Int) * 100 + (k : Int)) ∧
        (op = 43 → k = 0 ∧ ts.length ≤ 1) ∧
        (op ≠ 43 → ∃ t, ts = [t] ∧ k = (operandValue img.labels img.vars t).getD 0)) ∧
    img.warnings = (lines.map classify).filterMap (warningOf img) ∧
    imageText img = img.data.map render ++ img.words.map render

/-- R161 and R82, R77, R76, R81: a program fails exactly when the Assembler has something to refuse in
it, and the reason is the first it meets. The tables in which scan 2's operands are resolved are those
the assembly ends with, which scans 1A and 1B have completed whenever scan 2 decides. What an identifier is (R61) is stated
beside it, in ASCII (log entry 6). -/
def Obligations.AssemblyFailsWithTheFirstProblemMet : Prop :=
  (∀ lines : List Text,
    (∀ r, (assemble lines).phase = .failed r ↔
      (problems (assemble lines).labels (assemble lines).vars (lines.map classify)).head? = some r) ∧
    ((∃ img, (assemble lines).phase = .image img) ↔
      problems (assemble lines).labels (assemble lines).vars (lines.map classify) = [])) ∧
  (∀ t : Text, isIdentifier t = true ↔ IdentifierText t)

/-- R58: the mnemonic table has 28 spellings of 19 opcodes, matched in any mix of cases, and every
spelling is reserved: it is never the name of a declared variable. -/
def Obligations.MnemonicsAreCaseInsensitiveAndReserved : Prop :=
  mnemonicTable.length = 28 ∧ (mnemonicTable.map Prod.fst).Nodup ∧
  (mnemonicTable.map Prod.snd).dedup.length = 19 ∧
  (∀ t u : Text, t.map Char.toUpper = u.map Char.toUpper → opcodeOf t = opcodeOf u) ∧
  (∀ e ∈ mnemonicTable, opcodeOf e.1.toList = some e.2) ∧
  (∀ (line name : Text) (v : Int), classify line = .varDecl name v → opcodeOf name = none)

/-- R59: leading and trailing spaces and tabs change nothing about a line's class. -/
def Obligations.SurroundingBlanksDoNotChangeTheClass : Prop :=
  ∀ pre line post : Text, (∀ c ∈ pre, c = ' ' ∨ c = '\t') → (∀ c ∈ post, c = ' ' ∨ c = '\t') →
    classify (pre ++ line ++ post) = classify line

/-- R59 and R60: which lines get which class. `Classified` writes the five tests out in their order,
over the tokens, the trimmed text and the lexical classes as R59 and R61 describe them; every line has
exactly one class and it is the one `classify` answers. Then the three surface forms of a declaration
on any blanks, `x=5` and `x = 5` among them. Letters and digits are ASCII (log entry 6). -/
def Obligations.LinesGetTheClassOfTheGrammar : Prop :=
  (∀ (line : Text) (c : LineClass), Classified line c ↔ classify line = c) ∧
  (∀ (line : Text) (ts : List Text), Tokenized line ts ↔ tokens line = ts) ∧
  (∀ line : Text, AllBlank line → classify line = .blank) ∧
  (∀ pre rest : Text, AllBlank pre → classify (pre ++ '/' :: '/' :: rest) = .comment) ∧
  (∀ name gap : Text, IdentifierText name → AllBlank gap →
    classify (name ++ gap ++ [':']) = .labelDef name) ∧
  (∀ (x t gap gap' : Text) (v : Int), IdentifierText x → opcodeOf x = none → IntegerText t v →
    AllBlank gap → AllBlank gap' →
    classify x = .varDecl x 0 ∧
    (gap ≠ [] → classify (x ++ gap ++ t) = .varDecl x v) ∧
    classify (x ++ gap ++ ['='] ++ gap' ++ t) = .varDecl x v) ∧
  (∀ (x gap : Text), opcodeOf x ≠ none → IdentifierText x → AllBlank gap →
    classify x = .instr x [] ∧
    ∀ t : Text, t ≠ [] → gap ≠ [] → (∀ c ∈ t, ¬ IsBlank c ∧ c ≠ '=') → t.getLast? ≠ some ':' →
      classify (x ++ gap ++ t) = .instr x [t])

/-- R6: the text of a word is four decimal digits whose decimal value is the word's absolute value,
with a minus sign in front exactly when the word is negative; `parse` inverts `render` on every word,
and nothing else parses. -/
def Obligations.TextFormRoundTrips : Prop :=
  (∀ w : Int, inRange w = true → parse (render w) = some w ∧
    ∃ ds : Text, LiteralText ds ∧ ds.length = 4 ∧ decimalValue ds = w.natAbs ∧
      render w = if w < 0 then '-' :: ds else ds) ∧
  (∀ (t : Text) (w : Int), parse t = some w → inRange w = true ∧ render w = t) ∧
  render 5 = "0005".toList ∧ render 0 = "0000".toList ∧ render 9999 = "9999".toList ∧
  render (-5) = "-0005".toList
end

