-- ==== Sys2Proof/Laws/Memory.lean ====
section
/-! SUPPORT. The laws of memory: reads after writes, the canonical form, extensionality. -/

namespace Sys2Proof.Machine

/-! ## Reads -/

@[simp] theorem Memory.read_nil (fill : Option Cell) (a : Nat) : Memory.read fill [] a = fill := rfl

theorem Memory.read_cons (fill : Option Cell) (e : Nat × Cell) (m : Memory) (a : Nat) :
    Memory.read fill (e :: m) a = if a = e.1 then some e.2 else Memory.read fill m a := rfl

/-- An address that memory does not list reads as the fill. -/
theorem Memory.read_of_unlisted (fill : Option Cell) (m : Memory) (a : Nat)
    (h : a ∉ m.map Prod.fst) : m.read fill a = fill := by
  induction m with
  | nil => rfl
  | cons e m ih =>
    simp only [List.map_cons, List.mem_cons, not_or] at h
    rw [Memory.read_cons, if_neg h.1, ih h.2]

/-- A listed address reads as its value, where no address is listed twice. -/
theorem Memory.read_of_mem (fill : Option Cell) (m : Memory) (e : Nat × Cell)
    (hm : (m.map Prod.fst).Pairwise (· < ·)) (h : e ∈ m) : m.read fill e.1 = some e.2 := by
  induction m with
  | nil => cases h
  | cons d m ih =>
    rw [List.map_cons, List.pairwise_cons] at hm
    rw [Memory.read_cons]
    rcases List.mem_cons.1 h with rfl | h
    · simp
    · have hlt := hm.1 e.1 (List.mem_map_of_mem h)
      rw [if_neg (by omega), ih hm.2 h]

theorem Memory.read_erase_same (fill : Option Cell) (m : Memory) (a : Nat) :
    (m.erase a).read fill a = fill := by
  apply Memory.read_of_unlisted
  intro h
  obtain ⟨e, he, rfl⟩ := List.mem_map.1 h
  have := (List.mem_filter.1 he).2
  simp at this

theorem Memory.read_erase_other (fill : Option Cell) (m : Memory) (a b : Nat) (h : b ≠ a) :
    (m.erase a).read fill b = m.read fill b := by
  induction m with
  | nil => rfl
  | cons e m ih =>
    unfold Memory.erase at ih ⊢
    by_cases he : e.1 = a
    · rw [List.filter_cons_of_neg (by simpa using he), ih, Memory.read_cons,
        if_neg (by rw [he]; exact h)]
    · rw [List.filter_cons_of_pos (by simpa using he), Memory.read_cons, Memory.read_cons, ih]

theorem Memory.read_insert_other (fill : Option Cell) (m : Memory) (a b : Nat) (c : Cell)
    (h : b ≠ a) : (m.insert a c).read fill b = m.read fill b := by
  induction m with
  | nil => rw [Memory.insert, Memory.read_cons, if_neg h]
  | cons e m ih =>
    unfold Memory.insert
    split
    · rw [Memory.read_cons, if_neg h]
    · rw [Memory.read_cons, Memory.read_cons, ih]

theorem Memory.read_insert_same (fill : Option Cell) (m : Memory) (a : Nat) (c : Cell)
    (h : a ∉ m.map Prod.fst) : (m.insert a c).read fill a = some c := by
  induction m with
  | nil => rw [Memory.insert, Memory.read_cons, if_pos rfl]
  | cons e m ih =>
    simp only [List.map_cons, List.mem_cons, not_or] at h
    unfold Memory.insert
    split
    · rw [Memory.read_cons, if_pos rfl]
    · rw [Memory.read_cons, if_neg h.1, ih h.2]

theorem Memory.not_mem_erase (m : Memory) (a : Nat) : a ∉ (m.erase a).map Prod.fst := by
  intro h
  obtain ⟨e, he, rfl⟩ := List.mem_map.1 h
  have := (List.mem_filter.1 he).2
  simp at this

/-- A read after a write to the same cell gives the value written. -/
@[simp] theorem Memory.read_write_same (fill : Option Cell) (m : Memory) (a : Nat) (c : Cell) :
    (m.write fill a c).read fill a = some c := by
  unfold Memory.write
  split
  · rename_i h
    rw [Memory.read_erase_same, h]
  · exact Memory.read_insert_same _ _ _ _ (Memory.not_mem_erase m a)

/-- A write leaves every other cell alone. -/
theorem Memory.read_write_other (fill : Option Cell) (m : Memory) (a b : Nat) (c : Cell)
    (h : b ≠ a) : (m.write fill a c).read fill b = m.read fill b := by
  unfold Memory.write
  split
  · exact Memory.read_erase_other _ _ _ _ h
  · rw [Memory.read_insert_other _ _ _ _ _ h, Memory.read_erase_other _ _ _ _ h]

/-! ## The canonical form -/

theorem Memory.wf_nil (cfg : Config) : Memory.wf cfg [] :=
  ⟨List.Pairwise.nil, fun _ h => by cases h⟩

theorem Memory.mem_insert (m : Memory) (a : Nat) (c : Cell) (e : Nat × Cell) :
    e ∈ m.insert a c ↔ e = (a, c) ∨ e ∈ m := by
  induction m with
  | nil => simp [Memory.insert]
  | cons d m ih =>
    unfold Memory.insert
    split
    · simp
    · simp only [List.mem_cons, ih]
      tauto

theorem Memory.erase_wf (cfg : Config) (m : Memory) (a : Nat) (h : Memory.wf cfg m) :
    Memory.wf cfg (m.erase a) :=
  ⟨List.Pairwise.sublist (List.filter_sublist.map Prod.fst) h.1,
    fun e he => h.2 e (List.mem_of_mem_filter he)⟩

theorem Memory.insert_sorted (m : Memory) (a : Nat) (c : Cell)
    (h : (m.map Prod.fst).Pairwise (· < ·)) (ha : a ∉ m.map Prod.fst) :
    ((m.insert a c).map Prod.fst).Pairwise (· < ·) := by
  induction m with
  | nil => simp [Memory.insert]
  | cons d m ih =>
    rw [List.map_cons, List.pairwise_cons] at h
    simp only [List.map_cons, List.mem_cons, not_or] at ha
    unfold Memory.insert
    split
    · rename_i hlt
      rw [List.map_cons, List.pairwise_cons]
      refine ⟨?_, by rw [List.map_cons, List.pairwise_cons]; exact h⟩
      intro b hb
      rcases List.mem_cons.1 hb with rfl | hb
      · exact hlt
      · exact lt_trans hlt (h.1 b hb)
    · rename_i hlt
      rw [List.map_cons, List.pairwise_cons]
      refine ⟨?_, ih h.2 ha.2⟩
      intro b hb
      obtain ⟨e, he, rfl⟩ := List.mem_map.1 hb
      rcases (Memory.mem_insert m a c e).1 he with rfl | he
      · have := ha.1
        simp only at *
        omega
      · exact h.1 _ (List.mem_map_of_mem he)

/-- A write of a lawful cell below `CAP` keeps the canonical form. -/
theorem Memory.write_wf (cfg : Config) (m : Memory) (a : Nat) (c : Cell) (h : Memory.wf cfg m)
    (ha : a < cfg.cap) (hc : c.wf = true) : Memory.wf cfg (m.write cfg.fill a c) := by
  have he := Memory.erase_wf cfg m a h
  unfold Memory.write
  split
  · exact he
  · rename_i hf
    refine ⟨Memory.insert_sorted _ _ _ he.1 (Memory.not_mem_erase m a), fun e hm => ?_⟩
    rcases (Memory.mem_insert _ a c e).1 hm with rfl | hm
    · exact ⟨ha, fun h => hf h.symm, hc⟩
    · exact he.2 e hm

/-! ## Loading -/

/-- Loading keeps the canonical form when every word is in range and every address below `CAP`. -/
theorem Memory.writeWords_wf (cfg : Config) (ws : List Int) (m : Memory) (a : Nat)
    (h : Memory.wf cfg m) (ha : a + ws.length ≤ cfg.cap) (hw : ∀ w ∈ ws, inRange w = true) :
    Memory.wf cfg (Memory.writeWords cfg.fill m a ws) := by
  induction ws generalizing m a with
  | nil => exact h
  | cons w ws ih =>
    rw [List.length_cons] at ha
    refine ih _ _ (Memory.write_wf cfg m a _ h (by omega) ?_) (by omega)
      fun v hv => hw v (List.mem_cons_of_mem _ hv)
    exact hw w List.mem_cons_self

/-- Below the block nothing is written. -/
theorem Memory.read_writeWords_below (fill : Option Cell) (ws : List Int) (m : Memory) (a b : Nat)
    (h : b < a) : (Memory.writeWords fill m a ws).read fill b = m.read fill b := by
  induction ws generalizing m a with
  | nil => rfl
  | cons w ws ih =>
    rw [Memory.writeWords, ih _ _ (by omega), Memory.read_write_other _ _ _ _ _ (by omega)]

/-- Past the block nothing is written. -/
theorem Memory.read_writeWords_above (fill : Option Cell) (ws : List Int) (m : Memory) (a b : Nat)
    (h : a + ws.length ≤ b) : (Memory.writeWords fill m a ws).read fill b = m.read fill b := by
  induction ws generalizing m a with
  | nil => rfl
  | cons w ws ih =>
    rw [List.length_cons] at h
    rw [Memory.writeWords, ih _ _ (by omega), Memory.read_write_other _ _ _ _ _ (by omega)]

/-- In the block each word stands at its place. -/
theorem Memory.read_writeWords_at (fill : Option Cell) (ws : List Int) (m : Memory) (a j : Nat)
    (w : Int) (h : ws[j]? = some w) :
    (Memory.writeWords fill m a ws).read fill (a + j) = some (.numeric w) := by
  induction ws generalizing m a j with
  | nil => simp at h
  | cons v ws ih =>
    rw [Memory.writeWords]
    cases j with
    | zero =>
      simp only [List.getElem?_cons_zero, Option.some.injEq] at h
      rw [Memory.read_writeWords_below _ _ _ _ _ (by omega), h, Nat.add_zero,
        Memory.read_write_same]
    | succ j =>
      rw [List.getElem?_cons_succ] at h
      have := ih (m.write fill a (.numeric v)) (a + 1) j h
      rw [← this]
      congr 1
      omega

end Sys2Proof.Machine
end

