-- ==== Sys2Proof/Laws/State.lean ====
section
/-! SUPPORT. One lemma per field per named update of the state, true by rfl, so that no proof unfolds a
record update; and what an update leaves of the cells. -/

namespace Sys2Proof.Machine

variable (s : State)

/-! ### `setAcc` -/

@[simp] theorem State.setAcc_cfg (v : Int) : (s.setAcc v).cfg = s.cfg := rfl
@[simp] theorem State.setAcc_acc (v : Int) : (s.setAcc v).acc = v := rfl
@[simp] theorem State.setAcc_pc (v : Int) : (s.setAcc v).pc = s.pc := rfl
@[simp] theorem State.setAcc_state (v : Int) : (s.setAcc v).state = s.state := rfl
@[simp] theorem State.setAcc_mem (v : Int) : (s.setAcc v).mem = s.mem := rfl
@[simp] theorem State.setAcc_input (v : Int) : (s.setAcc v).input = s.input := rfl
@[simp] theorem State.setAcc_output (v : Int) : (s.setAcc v).output = s.output := rfl
@[simp] theorem State.setAcc_diag (v : Int) : (s.setAcc v).diag = s.diag := rfl
@[simp] theorem State.setAcc_asm (v : Int) : (s.setAcc v).asm = s.asm := rfl
@[simp] theorem State.setAcc_cellAt (v : Int) (b : Nat) : (s.setAcc v).cellAt b = s.cellAt b := rfl

/-! ### `advance` -/

@[simp] theorem State.advance_cfg : (s.advance).cfg = s.cfg := rfl
@[simp] theorem State.advance_acc : (s.advance).acc = s.acc := rfl
@[simp] theorem State.advance_pc : (s.advance).pc = s.pc + 1 := rfl
@[simp] theorem State.advance_state : (s.advance).state = s.state := rfl
@[simp] theorem State.advance_mem : (s.advance).mem = s.mem := rfl
@[simp] theorem State.advance_input : (s.advance).input = s.input := rfl
@[simp] theorem State.advance_output : (s.advance).output = s.output := rfl
@[simp] theorem State.advance_diag : (s.advance).diag = s.diag := rfl
@[simp] theorem State.advance_asm : (s.advance).asm = s.asm := rfl
@[simp] theorem State.advance_cellAt (b : Nat) : (s.advance).cellAt b = s.cellAt b := rfl

/-! ### `jumpTo` -/

@[simp] theorem State.jumpTo_cfg (a : Nat) : (s.jumpTo a).cfg = s.cfg := rfl
@[simp] theorem State.jumpTo_acc (a : Nat) : (s.jumpTo a).acc = s.acc := rfl
@[simp] theorem State.jumpTo_pc (a : Nat) : (s.jumpTo a).pc = a := rfl
@[simp] theorem State.jumpTo_state (a : Nat) : (s.jumpTo a).state = s.state := rfl
@[simp] theorem State.jumpTo_mem (a : Nat) : (s.jumpTo a).mem = s.mem := rfl
@[simp] theorem State.jumpTo_input (a : Nat) : (s.jumpTo a).input = s.input := rfl
@[simp] theorem State.jumpTo_output (a : Nat) : (s.jumpTo a).output = s.output := rfl
@[simp] theorem State.jumpTo_diag (a : Nat) : (s.jumpTo a).diag = s.diag := rfl
@[simp] theorem State.jumpTo_asm (a : Nat) : (s.jumpTo a).asm = s.asm := rfl
@[simp] theorem State.jumpTo_cellAt (a : Nat) (b : Nat) : (s.jumpTo a).cellAt b = s.cellAt b := rfl

/-! ### `halt` -/

@[simp] theorem State.halt_cfg : (s.halt).cfg = s.cfg := rfl
@[simp] theorem State.halt_acc : (s.halt).acc = s.acc := rfl
@[simp] theorem State.halt_pc : (s.halt).pc = s.pc := rfl
@[simp] theorem State.halt_state : (s.halt).state = .halted := rfl
@[simp] theorem State.halt_mem : (s.halt).mem = s.mem := rfl
@[simp] theorem State.halt_input : (s.halt).input = s.input := rfl
@[simp] theorem State.halt_output : (s.halt).output = s.output := rfl
@[simp] theorem State.halt_diag : (s.halt).diag = s.diag := rfl
@[simp] theorem State.halt_asm : (s.halt).asm = s.asm := rfl
@[simp] theorem State.halt_cellAt (b : Nat) : (s.halt).cellAt b = s.cellAt b := rfl

/-! ### `exhaust` -/

@[simp] theorem State.exhaust_cfg : (s.exhaust).cfg = s.cfg := rfl
@[simp] theorem State.exhaust_acc : (s.exhaust).acc = s.acc := rfl
@[simp] theorem State.exhaust_pc : (s.exhaust).pc = s.pc := rfl
@[simp] theorem State.exhaust_state : (s.exhaust).state = .exhausted := rfl
@[simp] theorem State.exhaust_mem : (s.exhaust).mem = s.mem := rfl
@[simp] theorem State.exhaust_input : (s.exhaust).input = s.input := rfl
@[simp] theorem State.exhaust_output : (s.exhaust).output = s.output := rfl
@[simp] theorem State.exhaust_diag : (s.exhaust).diag = s.diag := rfl
@[simp] theorem State.exhaust_asm : (s.exhaust).asm = s.asm := rfl
@[simp] theorem State.exhaust_cellAt (b : Nat) : (s.exhaust).cellAt b = s.cellAt b := rfl

/-! ### `emit` -/

@[simp] theorem State.emit_cfg (o : OutputItem) : (s.emit o).cfg = s.cfg := rfl
@[simp] theorem State.emit_acc (o : OutputItem) : (s.emit o).acc = s.acc := rfl
@[simp] theorem State.emit_pc (o : OutputItem) : (s.emit o).pc = s.pc := rfl
@[simp] theorem State.emit_state (o : OutputItem) : (s.emit o).state = s.state := rfl
@[simp] theorem State.emit_mem (o : OutputItem) : (s.emit o).mem = s.mem := rfl
@[simp] theorem State.emit_input (o : OutputItem) : (s.emit o).input = s.input := rfl
@[simp] theorem State.emit_output (o : OutputItem) : (s.emit o).output = s.output ++ [o] := rfl
@[simp] theorem State.emit_diag (o : OutputItem) : (s.emit o).diag = s.diag := rfl
@[simp] theorem State.emit_asm (o : OutputItem) : (s.emit o).asm = s.asm := rfl
@[simp] theorem State.emit_cellAt (o : OutputItem) (b : Nat) : (s.emit o).cellAt b = s.cellAt b := rfl

/-! ### `warn` -/

@[simp] theorem State.warn_cfg (d : Diagnostic) : (s.warn d).cfg = s.cfg := rfl
@[simp] theorem State.warn_acc (d : Diagnostic) : (s.warn d).acc = s.acc := rfl
@[simp] theorem State.warn_pc (d : Diagnostic) : (s.warn d).pc = s.pc := rfl
@[simp] theorem State.warn_state (d : Diagnostic) : (s.warn d).state = s.state := rfl
@[simp] theorem State.warn_mem (d : Diagnostic) : (s.warn d).mem = s.mem := rfl
@[simp] theorem State.warn_input (d : Diagnostic) : (s.warn d).input = s.input := rfl
@[simp] theorem State.warn_output (d : Diagnostic) : (s.warn d).output = s.output := rfl
@[simp] theorem State.warn_diag (d : Diagnostic) : (s.warn d).diag = s.diag ++ [d] := rfl
@[simp] theorem State.warn_asm (d : Diagnostic) : (s.warn d).asm = s.asm := rfl
@[simp] theorem State.warn_cellAt (d : Diagnostic) (b : Nat) : (s.warn d).cellAt b = s.cellAt b := rfl

/-! ### `withInput` -/

@[simp] theorem State.withInput_cfg (rest : List InputItem) : (s.withInput rest).cfg = s.cfg := rfl
@[simp] theorem State.withInput_acc (rest : List InputItem) : (s.withInput rest).acc = s.acc := rfl
@[simp] theorem State.withInput_pc (rest : List InputItem) : (s.withInput rest).pc = s.pc := rfl
@[simp] theorem State.withInput_state (rest : List InputItem) : (s.withInput rest).state = s.state := rfl
@[simp] theorem State.withInput_mem (rest : List InputItem) : (s.withInput rest).mem = s.mem := rfl
@[simp] theorem State.withInput_input (rest : List InputItem) : (s.withInput rest).input = rest := rfl
@[simp] theorem State.withInput_output (rest : List InputItem) : (s.withInput rest).output = s.output := rfl
@[simp] theorem State.withInput_diag (rest : List InputItem) : (s.withInput rest).diag = s.diag := rfl
@[simp] theorem State.withInput_asm (rest : List InputItem) : (s.withInput rest).asm = s.asm := rfl
@[simp] theorem State.withInput_cellAt (rest : List InputItem) (b : Nat) : (s.withInput rest).cellAt b = s.cellAt b := rfl

/-! ### `raiseFault` -/

@[simp] theorem raiseFault_cfg (c : FaultCause) : (raiseFault c s).cfg = s.cfg := rfl
@[simp] theorem raiseFault_acc (c : FaultCause) : (raiseFault c s).acc = s.acc := rfl
@[simp] theorem raiseFault_pc (c : FaultCause) : (raiseFault c s).pc = s.pc := rfl
@[simp] theorem raiseFault_state (c : FaultCause) : (raiseFault c s).state = .faulted c := rfl
@[simp] theorem raiseFault_mem (c : FaultCause) : (raiseFault c s).mem = s.mem := rfl
@[simp] theorem raiseFault_input (c : FaultCause) : (raiseFault c s).input = s.input := rfl
@[simp] theorem raiseFault_output (c : FaultCause) : (raiseFault c s).output = s.output := rfl
@[simp] theorem raiseFault_diag (c : FaultCause) : (raiseFault c s).diag = s.diag ++ [.faultReport c s.pc] := rfl
@[simp] theorem raiseFault_asm (c : FaultCause) : (raiseFault c s).asm = s.asm := rfl
@[simp] theorem raiseFault_cellAt (c : FaultCause) (b : Nat) : (raiseFault c s).cellAt b = s.cellAt b := rfl

/-! ### `resetTo` -/

@[simp] theorem resetTo_cfg (n : Nat) : (resetTo n s).cfg = s.cfg := rfl
@[simp] theorem resetTo_acc (n : Nat) : (resetTo n s).acc = 0 := rfl
@[simp] theorem resetTo_pc (n : Nat) : (resetTo n s).pc = n := rfl
@[simp] theorem resetTo_state (n : Nat) : (resetTo n s).state = .running := rfl
@[simp] theorem resetTo_mem (n : Nat) : (resetTo n s).mem = s.mem := rfl
@[simp] theorem resetTo_input (n : Nat) : (resetTo n s).input = s.input := rfl
@[simp] theorem resetTo_output (n : Nat) : (resetTo n s).output = s.output := rfl
@[simp] theorem resetTo_diag (n : Nat) : (resetTo n s).diag = s.diag := rfl
@[simp] theorem resetTo_asm (n : Nat) : (resetTo n s).asm = s.asm := rfl
@[simp] theorem resetTo_cellAt (n : Nat) (b : Nat) : (resetTo n s).cellAt b = s.cellAt b := rfl

/-! ### `supplyInput` -/

@[simp] theorem supplyInput_cfg (item : InputItem) : (supplyInput item s).cfg = s.cfg := rfl
@[simp] theorem supplyInput_acc (item : InputItem) : (supplyInput item s).acc = s.acc := rfl
@[simp] theorem supplyInput_pc (item : InputItem) : (supplyInput item s).pc = s.pc := rfl
@[simp] theorem supplyInput_state (item : InputItem) : (supplyInput item s).state = s.state := rfl
@[simp] theorem supplyInput_mem (item : InputItem) : (supplyInput item s).mem = s.mem := rfl
@[simp] theorem supplyInput_input (item : InputItem) : (supplyInput item s).input = s.input ++ [item] := rfl
@[simp] theorem supplyInput_output (item : InputItem) : (supplyInput item s).output = s.output := rfl
@[simp] theorem supplyInput_diag (item : InputItem) : (supplyInput item s).diag = s.diag := rfl
@[simp] theorem supplyInput_asm (item : InputItem) : (supplyInput item s).asm = s.asm := rfl
@[simp] theorem supplyInput_cellAt (item : InputItem) (b : Nat) : (supplyInput item s).cellAt b = s.cellAt b := rfl

end Sys2Proof.Machine
end

