-- ==== Sys2Proof/Laws/Ops.lean ====
section
/-! SUPPORT. What each shared operation can do, said once (R7, R36 to R38, R120, R123, R167). -/

namespace Sys2Proof.Machine

/-! ## The range and the division -/

theorem inRange_iff (z : Int) : inRange z = true ↔ -9999 ≤ z ∧ z ≤ 9999 := by
  rw [inRange, Bool.and_eq_true, decide_eq_true_iff, decide_eq_true_iff]
  rfl

theorem not_inRange_iff (z : Int) : inRange z = false ↔ z < -9999 ∨ 9999 < z := by
  rw [← Bool.not_eq_true, inRange_iff]
  omega

/-- The rule's formula is Lean's truncating quotient (R121). -/
theorem tdiv_eq_int_tdiv (a b : Int) : tdiv a b = a.tdiv b := by
  have habs : ∀ m : Nat, |(m : Int) + 1| = (m : Int) + 1 := fun m => abs_of_nonneg (by omega)
  rcases a with (_ | m) | m <;> rcases b with (_ | n) | n <;>
    simp [tdiv, Int.tdiv, Int.sign, habs]

/-- The rule's remainder is Lean's truncating remainder (R121). -/
theorem tmod_eq_int_tmod (a b : Int) : tmod a b = a.tmod b := by
  rw [tmod, tdiv_eq_int_tdiv, Int.tmod_def]

/-- The quotient of a lawful dividend is lawful, whatever the divisor (R122). -/
theorem tdiv_natAbs_le (a b : Int) : (tdiv a b).natAbs ≤ a.natAbs := by
  rw [tdiv_eq_int_tdiv, Int.natAbs_tdiv]
  exact Nat.div_le_self _ _

/-- The remainder is smaller than the divisor (R121). -/
theorem tmod_natAbs_lt (a b : Int) (h : b ≠ 0) : (tmod a b).natAbs < b.natAbs := by
  rw [tmod_eq_int_tmod, Int.natAbs_tmod]
  exact Nat.mod_lt _ (Int.natAbs_pos.2 h)

/-! ## Cells -/

theorem memRead_ok (s : State) (a : Nat) (c : Cell) :
    memRead s a = .ok c ↔ a < s.cfg.cap ∧ s.cellAt a = some c := by
  unfold memRead
  split
  · split <;> simp_all
  · simp_all

theorem memRead_absent (s : State) (a : Nat) (h : s.cfg.cap ≤ a) :
    memRead s a = .error .addressOutOfRange := by
  rw [memRead, if_neg (by omega)]

theorem memRead_uninit (s : State) (a : Nat) (h : a < s.cfg.cap) (hc : s.cellAt a = none) :
    memRead s a = .error .uninitRead := by
  rw [memRead, if_pos h, hc]

theorem memRead_cell (s : State) (a : Nat) (c : Cell) (h : a < s.cfg.cap)
    (hc : s.cellAt a = some c) : memRead s a = .ok c := by
  rw [memRead, if_pos h, hc]

/-- What `MemRead` can answer (R36, R37). -/
theorem memRead_cases (s : State) (a : Nat) :
    (∃ c, a < s.cfg.cap ∧ s.cellAt a = some c ∧ memRead s a = .ok c) ∨
    (a < s.cfg.cap ∧ s.cellAt a = none ∧ memRead s a = .error .uninitRead) ∨
    (s.cfg.cap ≤ a ∧ memRead s a = .error .addressOutOfRange) := by
  by_cases h : a < s.cfg.cap
  · cases hc : s.cellAt a with
    | none => exact .inr (.inl ⟨h, rfl, memRead_uninit s a h hc⟩)
    | some c => exact .inl ⟨c, h, rfl, memRead_cell s a c h hc⟩
  · exact .inr (.inr ⟨by omega, memRead_absent s a (by omega)⟩)

/-- What `NumRead` can answer (R38). -/
theorem numRead_cases (s : State) (a : Nat) :
    (∃ w, a < s.cfg.cap ∧ s.cellAt a = some (.numeric w) ∧ numRead s a = .ok w) ∨
    (∃ t, a < s.cfg.cap ∧ s.cellAt a = some (.raw t) ∧ numRead s a = .error .nonNumericOperand) ∨
    (a < s.cfg.cap ∧ s.cellAt a = none ∧ numRead s a = .error .uninitRead) ∨
    (s.cfg.cap ≤ a ∧ numRead s a = .error .addressOutOfRange) := by
  unfold numRead
  rcases memRead_cases s a with ⟨c, h, hc, hm⟩ | ⟨h, hc, hm⟩ | ⟨h, hm⟩
  · cases c with
    | numeric w => exact .inl ⟨w, h, hc, by rw [hm]⟩
    | raw t => exact .inr (.inl ⟨t, h, hc, by rw [hm]⟩)
  · exact .inr (.inr (.inl ⟨h, hc, by rw [hm]⟩))
  · exact .inr (.inr (.inr ⟨h, by rw [hm]⟩))

/-- What `MemWrite` can answer (R36). -/
theorem memWrite_cases (s : State) (a : Nat) (c : Cell) :
    (a < s.cfg.cap ∧
      memWrite s a c = .ok { s with mem := s.mem.write s.cfg.fill a c }) ∨
    (s.cfg.cap ≤ a ∧ memWrite s a c = .error .addressOutOfRange) := by
  unfold memWrite
  split
  · exact .inl ⟨by assumption, rfl⟩
  · exact .inr ⟨by omega, rfl⟩

/-- A write of a lawful cell keeps the canonical form of memory. -/
theorem memWrite_keeps_wf (s t : State) (a : Nat) (c : Cell) (h : Memory.wf s.cfg s.mem)
    (hc : c.wf = true) (hw : memWrite s a c = .ok t) : Memory.wf t.cfg t.mem := by
  rcases memWrite_cases s a c with ⟨ha, he⟩ | ⟨ha, he⟩
  · rw [he] at hw
    cases hw
    exact Memory.write_wf s.cfg s.mem a c h ha hc
  · rw [he] at hw
    cases hw

/-- The loader's memory is in canonical form when the image fits and its words are in range. -/
theorem imageMemory_wf (cfg : Config) (img : Image) (hd : img.data.length ≤ cfg.cap)
    (hw : img.origin + img.words.length ≤ cfg.cap) (hdr : ∀ w ∈ img.data, inRange w = true)
    (hwr : ∀ w ∈ img.words, inRange w = true) : Memory.wf cfg (imageMemory cfg.fill img) :=
  Memory.writeWords_wf cfg _ _ _
    (Memory.writeWords_wf cfg _ _ _ (Memory.wf_nil cfg) (by omega) hdr) hw hwr

/-- The memory right after reset is in canonical form. -/
theorem reset_memory_wf : Memory.wf State.reset.cfg State.reset.mem := Memory.wf_nil _

/-! ## Faults and operands -/

/-- Fault entry is the spec's (R167). -/
theorem raiseFault_eq (c : FaultCause) (s : State) : raiseFault c s = faultedWith c s := rfl

/-- What an opcode that reads any cell can do. -/
theorem withCell_cases (k : Nat) (s : State) (f : Cell → State) :
    (∃ c, k < s.cfg.cap ∧ s.cellAt k = some c ∧ withCell k s f = f c) ∨
    (k < s.cfg.cap ∧ s.cellAt k = none ∧ withCell k s f = raiseFault .uninitRead s) ∨
    (s.cfg.cap ≤ k ∧ withCell k s f = raiseFault .addressOutOfRange s) := by
  unfold withCell
  rcases memRead_cases s k with ⟨c, h, hc, hm⟩ | ⟨h, hc, hm⟩ | ⟨h, hm⟩
  · exact .inl ⟨c, h, hc, by rw [hm]⟩
  · exact .inr (.inl ⟨h, hc, by rw [hm]⟩)
  · exact .inr (.inr ⟨h, by rw [hm]⟩)

/-- What an opcode that reads a number can do. -/
theorem withNumber_cases (k : Nat) (s : State) (f : Int → State) :
    (∃ w, k < s.cfg.cap ∧ s.cellAt k = some (.numeric w) ∧ withNumber k s f = f w) ∨
    (∃ t, k < s.cfg.cap ∧ s.cellAt k = some (.raw t) ∧
      withNumber k s f = raiseFault .nonNumericOperand s) ∨
    (k < s.cfg.cap ∧ s.cellAt k = none ∧ withNumber k s f = raiseFault .uninitRead s) ∨
    (s.cfg.cap ≤ k ∧ withNumber k s f = raiseFault .addressOutOfRange s) := by
  unfold withNumber
  rcases numRead_cases s k with ⟨w, h, hc, hm⟩ | ⟨t, h, hc, hm⟩ | ⟨h, hc, hm⟩ | ⟨h, hm⟩
  · exact .inl ⟨w, h, hc, by rw [hm]⟩
  · exact .inr (.inl ⟨t, h, hc, by rw [hm]⟩)
  · exact .inr (.inr (.inl ⟨h, hc, by rw [hm]⟩))
  · exact .inr (.inr (.inr ⟨h, by rw [hm]⟩))

/-- What an opcode that writes a cell can do. -/
theorem storeCell_cases (k : Nat) (c : Cell) (s : State) :
    (k < s.cfg.cap ∧ storeCell k c s =
      { s with mem := s.mem.write s.cfg.fill k c, pc := s.pc + 1 }) ∨
    (s.cfg.cap ≤ k ∧ storeCell k c s = raiseFault .addressOutOfRange s) := by
  unfold storeCell
  rcases memWrite_cases s k c with ⟨h, hm⟩ | ⟨h, hm⟩
  · exact .inl ⟨h, by rw [hm]; rfl⟩
  · exact .inr ⟨h, by rw [hm]⟩

/-- What the range check can do (R120). -/
theorem finishChecked_cases (r : Int) (s : State) :
    ((-9999 ≤ r ∧ r ≤ 9999) ∧ finishChecked r s = { s with acc := r, pc := s.pc + 1 }) ∨
    ((r < -9999 ∨ 9999 < r) ∧ finishChecked r s = raiseFault .arithRange s) := by
  unfold finishChecked
  split
  · rename_i h
    exact .inl ⟨(inRange_iff r).1 h, rfl⟩
  · rename_i h
    exact .inr ⟨(not_inRange_iff r).1 (by simpa using h), rfl⟩

/-- What DIVIDE can do (R123, R126). -/
theorem divideBy_cases (b : Int) (s : State) :
    (b = 0 ∧ divideBy b s =
      { s with acc := 0, pc := s.pc + 1, diag := s.diag ++ [.divByZero s.pc] }) ∨
    (b ≠ 0 ∧ divideBy b s = finishChecked (tdiv s.acc b) s) := by
  unfold divideBy
  split
  · rename_i h
    exact .inl ⟨h, rfl⟩
  · rename_i h
    exact .inr ⟨h, rfl⟩

/-- What MODULO can do (R123, R127). -/
theorem moduloBy_cases (b : Int) (s : State) :
    (b = 0 ∧ moduloBy b s = raiseFault .modZero s) ∨
    (b ≠ 0 ∧ moduloBy b s = { s with acc := tmod s.acc b, pc := s.pc + 1 }) := by
  unfold moduloBy
  split
  · rename_i h
    exact .inl ⟨h, rfl⟩
  · rename_i h
    exact .inr ⟨h, rfl⟩

end Sys2Proof.Machine
end

