-- ==== Sys2Proof/Laws/Decode.lean ====
section
/-! SUPPORT. The decoder and the encoder in terms of the two fields of a word (R50, R52, R65). -/

namespace Sys2Proof.Machine

/-- The opcode field of a non-negative word is its two most significant digits (R52). -/
theorem wordOpcode_of_nonneg (w : Int) (h : 0 ≤ w) : wordOpcode w = w / 100 := by
  rw [wordOpcode, tdiv_eq_int_tdiv, Int.tdiv_eq_ediv_of_nonneg h]

/-- The operand field of a non-negative word is its two least significant digits (R52). -/
theorem wordOperand_of_nonneg (w : Int) (h : 0 ≤ w) : wordOperand w = w % 100 := by
  rw [wordOperand, tmod_eq_int_tmod, Int.tmod_eq_emod_of_nonneg h]

/-- A negative word has an opcode field of at most 0 (R52). -/
theorem wordOpcode_of_neg (w : Int) (h : w < 0) : (wordOpcode w).toNat = 0 := by
  have h0 : wordOpcode w = -((w.natAbs / 100 : Nat) : Int) := by
    rw [wordOpcode, tdiv, Int.sign_eq_neg_one_of_neg h, show Int.sign 100 = 1 from rfl,
      show Int.natAbs 100 = 100 from rfl]
    omega
  omega

end Sys2Proof.Machine

namespace Sys2Proof

open Machine

/-- A well-formed instruction has a two-digit operand (R51). -/
theorem Instr.wf_iff (i : Instr) : i.wf = true ↔ i.operand ≤ 99 := decide_eq_true_iff

/-- The opcode map has the opcode and the operand it was given (R54). -/
theorem instrOfOpcode_fields (op k : Nat) (i : Instr) (h : instrOfOpcode op k = some i) :
    i.opcode = op ∧ i.operand = k := by
  unfold instrOfOpcode at h
  split at h <;> first | cases h; exact ⟨rfl, rfl⟩ | cases h

/-- Every instruction is in the opcode map at its own opcode and operand (R54). -/
theorem instrOfOpcode_self (i : Instr) : instrOfOpcode i.opcode i.operand = some i := by
  cases i <;> rfl

/-- A word decodes to an instruction exactly when the map has its two fields. -/
theorem decode_ok_iff (w : Int) (i : Instr) :
    decode w = .ok i ↔
      instrOfOpcode (wordOpcode w).toNat (wordOperand w).toNat = some i := by
  unfold decode
  split <;> simp_all

/-- A rejected word reports its opcode field (R147). -/
theorem decode_error (w : Int) (op : Int) (h : decode w = .error (.unknownOpcode op)) :
    op = wordOpcode w := by
  unfold decode at h
  split at h
  · cases h
  · cases h; rfl

/-- A negative word decodes to nothing, and the map has nothing below opcode 10 (R52, R55). -/
theorem nonneg_of_decode (w : Int) (i : Instr) (h : decode w = .ok i) : 0 ≤ w := by
  by_contra hw
  rw [decode_ok_iff, wordOpcode_of_neg w (by omega)] at h
  cases h

/-- What a decoded word is, in numbers: its opcode and operand fields (R65). -/
theorem word_of_decode (w : Int) (i : Instr) (h : decode w = .ok i) :
    w = (i.opcode : Int) * 100 + (i.operand : Int) ∧ i.operand ≤ 99 := by
  have hw := nonneg_of_decode w i h
  rw [decode_ok_iff, wordOpcode_of_nonneg w hw, wordOperand_of_nonneg w hw] at h
  obtain ⟨ho, hk⟩ := instrOfOpcode_fields _ _ _ h
  omega

/-- The fields of `op*100 + k` are `op` and `k` when `k` has two digits (R65). -/
theorem decode_of_fields (op k : Nat) (h : k ≤ 99) :
    decode ((op : Int) * 100 + (k : Int)) =
      match instrOfOpcode op k with
      | some i => .ok i
      | none => .error (.unknownOpcode op) := by
  have h0 : (0 : Int) ≤ (op : Int) * 100 + (k : Int) := by omega
  have h1 : ((op : Int) * 100 + (k : Int)) / 100 = (op : Int) := by omega
  have h2 : ((op : Int) * 100 + (k : Int)) % 100 = (k : Int) := by omega
  cases hi : instrOfOpcode op k <;>
    simp [decode, wordOpcode_of_nonneg _ h0, wordOperand_of_nonneg _ h0, h1, h2, hi]

end Sys2Proof
end

