-- ==== Sys2Proof/Laws/Assembler.lean ====
section
/-! SUPPORT. The Assembler's scans: what a scan keeps, what one line does, and what an image says of the
scans that made it (R70 to R87). -/

namespace Sys2Proof.Machine

/-! ## Scans -/

/-- What every line keeps, a completed scan keeps. -/
theorem scanLines_keeps (f : AsmState → LineClass → Except AsmState AsmState)
    (P : AsmState → Prop) (hf : ∀ st l st', P st → f st l = .ok st' → P st')
    (ls : List LineClass) (st st' : AsmState) (h0 : P st) (h : scanLines f ls st = .ok st') :
    P st' := by
  induction ls generalizing st with
  | nil => cases h; exact h0
  | cons l ls ih =>
    rw [scanLines] at h
    split at h
    · rename_i st1 h1
      exact ih st1 (hf st l st1 h0 h1) h
    · cases h

/-- A failed scan completed the lines before the one that failed. -/
theorem scanLines_error (f : AsmState → LineClass → Except AsmState AsmState)
    (ls : List LineClass) (st bad : AsmState) (h : scanLines f ls st = .error bad) :
    ∃ pre l post st0, ls = pre ++ l :: post ∧ scanLines f pre st = .ok st0 ∧
      f st0 l = .error bad := by
  induction ls generalizing st with
  | nil => cases h
  | cons l ls ih =>
    rw [scanLines] at h
    split at h
    · rename_i st1 h1
      obtain ⟨pre, l', post, st0, rfl, h2, h3⟩ := ih _ h
      exact ⟨l :: pre, l', post, st0, rfl, by rw [scanLines, h1]; exact h2, h3⟩
    · rename_i bad' h1
      cases h
      exact ⟨[], l, ls, st, rfl, rfl, h1⟩

/-- Lines a scan skips may be left out. -/
theorem scanLines_filter (f : AsmState → LineClass → Except AsmState AsmState)
    (p : LineClass → Bool) (hp : ∀ st l, p l = false → f st l = .ok st) (ls : List LineClass)
    (st : AsmState) : scanLines f ls st = scanLines f (ls.filter p) st := by
  induction ls generalizing st with
  | nil => rfl
  | cons l ls ih =>
    by_cases hl : p l = true
    · rw [List.filter_cons_of_pos hl, scanLines, scanLines]
      split
      · exact ih _
      · rfl
    · rw [List.filter_cons_of_neg hl, scanLines, hp st l (by simpa using hl)]
      exact ih st

/-- A scan of two blocks is the scan of the second after the scan of the first. -/
theorem scanLines_append (f : AsmState → LineClass → Except AsmState AsmState)
    (xs ys : List LineClass) (st : AsmState) :
    scanLines f (xs ++ ys) st =
      match scanLines f xs st with
      | .ok st' => scanLines f ys st'
      | .error bad => .error bad := by
  induction xs generalizing st with
  | nil => rfl
  | cons l xs ih =>
    rw [List.cons_append, scanLines, scanLines]
    split
    · exact ih _
    · rfl

/-! ## Lines -/

@[simp] theorem AsmState.fail_phase (r : AsmFailure) (st : AsmState) :
    (st.fail r).phase = .failed r := rfl

@[simp] theorem AsmState.fail_words (r : AsmFailure) (st : AsmState) : (st.fail r).words = [] := rfl

/-- The state of a failed assembly (R85). -/
abbrev FailedState (st : AsmState) : Prop := ∃ r, st.phase = .failed r ∧ st.words = []

/-- What scan 1A can do with a line (R71, R82). -/
theorem declareLine_ok (st st' : AsmState) (l : LineClass) (h : declareLine st l = .ok st') :
    (st' = st ∧ ∀ name value, l = .varDecl name value → (st.lookupVar name).isSome) ∨
    ∃ name value, l = .varDecl name value ∧ st.lookupVar name = none ∧ inRange value = true ∧
      st' = st.declare name value := by
  cases l with
  | varDecl name value =>
    rw [declareLine] at h
    split at h
    · rename_i hs
      cases h
      exact .inl ⟨rfl, fun n v hl => by cases hl; exact hs⟩
    · rename_i hs
      split at h
      · rename_i hr
        cases h
        exact .inr ⟨name, value, rfl, by simpa using hs, hr, rfl⟩
      · cases h
  | _ =>
    cases h
    exact .inl ⟨rfl, fun n v hl => by cases hl⟩

/-- What scan 1B can do with a line (R73). -/
theorem labelLine_ok (st st' : AsmState) (l : LineClass) (h : labelLine st l = .ok st') :
    (st' = st ∧ isCodeLine l = false) ∨
    (∃ name, l = .labelDef name ∧
      st' = { st with labels := bindLabel name st.nextInstr st.labels }) ∨
    (∃ m ts, l = .instr m ts ∧ st' = { st with nextInstr := st.nextInstr + 1 }) := by
  cases l with
  | labelDef name =>
    rw [labelLine] at h
    split at h
    · cases h
      exact .inr (.inl ⟨name, rfl, rfl⟩)
    · cases h
  | instr m ts =>
    cases h
    exact .inr (.inr ⟨m, ts, rfl, rfl⟩)
  | _ =>
    cases h
    exact .inl ⟨rfl, rfl⟩

/-- What scan 2 can do with an instruction line it accepts: HALT emits 4300; any other opcode emits its
word with the operand's value, or with 0 and a warning (R75 to R81). -/
theorem encodeLine_ok (m : Text) (ts : List Text) (st st' : AsmState)
    (h : encodeLine m ts st = .ok st') :
    (opcodeOf m = some 43 ∧ ts.length ≤ 1 ∧ st' = st.emitWord 43 0) ∨
    ∃ op t, opcodeOf m = some op ∧ op ≠ 43 ∧ ts = [t] ∧
      ((∃ k, resolve st t = some k ∧ k ≤ 99 ∧ st' = st.emitWord op k) ∨
        (resolve st t = none ∧ st' = (st.warnUndefined t).emitWord op 0)) := by
  unfold encodeLine at h
  split at h
  · cases h
  · rename_i op hop
    split at h
    · cases h
    · rename_i hlen
      split at h
      · rename_i hb
        have h43 : op ≠ 43 := by simpa [bearsOperand] using hb
        split at h
        · cases h
        · rename_i _ t rest
          have hrest : rest = [] := by
            cases rest with
            | nil => rfl
            | cons u us => simp at hlen
          subst hrest
          refine .inr ⟨op, t, hop, h43, rfl, ?_⟩
          unfold encodeOperand at h
          split at h
          · rename_i hr
            cases h
            exact .inr ⟨hr, rfl⟩
          · rename_i k hk
            split at h
            · rename_i hle
              cases h
              exact .inl ⟨k, hk, hle, rfl⟩
            · cases h
      · rename_i hb
        have h43 : op = 43 := by simpa [bearsOperand] using hb
        subst h43
        cases h
        exact .inl ⟨hop, by omega, rfl⟩

/-- What scan 2 can do with a line. -/
theorem wordLine_ok (st st' : AsmState) (l : LineClass) (h : wordLine st l = .ok st') :
    (st' = st ∧ isInstrLine l = false) ∨
    ∃ m ts, l = .instr m ts ∧ encodeLine m ts st = .ok st' := by
  cases l with
  | instr m ts => exact .inr ⟨m, ts, rfl, h⟩
  | _ =>
    cases h
    exact .inl ⟨rfl, rfl⟩

/-- An accepted instruction line changes the word list, its counter and the warnings only. -/
theorem encodeLine_frame (m : Text) (ts : List Text) (st st' : AsmState)
    (h : encodeLine m ts st = .ok st') :
    st'.vars = st.vars ∧ st'.labels = st.labels ∧ st'.nextData = st.nextData ∧
      st'.nextInstr = st.nextInstr := by
  rcases encodeLine_ok m ts st st' h with
    ⟨_, _, rfl⟩ | ⟨_, _, _, _, _, ⟨_, _, _, rfl⟩ | ⟨_, rfl⟩⟩ <;>
    exact ⟨rfl, rfl, rfl, rfl⟩

/-- What scan 1A refuses (R82). -/
theorem declareLine_error (st bad : AsmState) (l : LineClass)
    (h : declareLine st l = .error bad) :
    ∃ name value, l = .varDecl name value ∧ st.lookupVar name = none ∧ inRange value = false ∧
      bad = st.fail (.initValueRange name value) := by
  cases l with
  | varDecl name value =>
    rw [declareLine] at h
    split at h
    · cases h
    · rename_i hs
      split at h
      · cases h
      · rename_i hr
        cases h
        exact ⟨name, value, rfl, by simpa using hs, by simpa using hr, rfl⟩
  | _ => cases h

/-- What scan 1B refuses (R77c). -/
theorem labelLine_error (st bad : AsmState) (l : LineClass) (h : labelLine st l = .error bad) :
    ∃ name, l = .labelDef name ∧ isIdentifier name = false ∧ bad = st.fail .malformedLine := by
  cases l with
  | labelDef name =>
    rw [labelLine] at h
    split at h
    · cases h
    · rename_i hn
      cases h
      exact ⟨name, rfl, by simpa using hn, rfl⟩
  | _ => cases h

/-- What scan 2 refuses of an instruction line, with its reason (R76, R77, R81). -/
theorem encodeLine_error (m : Text) (ts : List Text) (st bad : AsmState)
    (h : encodeLine m ts st = .error bad) :
    (opcodeOf m = none ∧ bad = st.fail (.unknownMnemonic m)) ∨
    (∃ op, opcodeOf m = some op ∧ 1 < ts.length ∧ bad = st.fail .malformedLine) ∨
    (∃ op, opcodeOf m = some op ∧ op ≠ 43 ∧ ts = [] ∧ bad = st.fail .missingOperand) ∨
    (∃ op t k, opcodeOf m = some op ∧ op ≠ 43 ∧ ts = [t] ∧ resolve st t = some k ∧ 99 < k ∧
      bad = st.fail (.operandOverflow t k)) := by
  unfold encodeLine at h
  split at h
  · rename_i hop
    cases h
    exact .inl ⟨hop, rfl⟩
  · rename_i op hop
    split at h
    · rename_i hlen
      cases h
      exact .inr (.inl ⟨op, hop, hlen, rfl⟩)
    · rename_i hlen
      split at h
      · rename_i hb
        have h43 : op ≠ 43 := by simpa [bearsOperand] using hb
        split at h
        · cases h
          exact .inr (.inr (.inl ⟨op, hop, h43, rfl, rfl⟩))
        · rename_i _ t rest
          have hrest : rest = [] := by
            cases rest with
            | nil => rfl
            | cons u us => simp at hlen
          subst hrest
          unfold encodeOperand at h
          split at h
          · cases h
          · rename_i k hk
            split at h
            · cases h
            · rename_i hle
              cases h
              exact .inr (.inr (.inr ⟨op, t, k, hop, h43, rfl, hk, Nat.lt_of_not_le hle, rfl⟩))
      · cases h

theorem wordLine_error (st bad : AsmState) (l : LineClass) (h : wordLine st l = .error bad) :
    ∃ m ts, l = .instr m ts ∧ encodeLine m ts st = .error bad := by
  cases l with
  | instr m ts => exact ⟨m, ts, rfl, h⟩
  | _ => cases h

/-! ## The whole algorithm -/

/-- Everything an assembly can do (R86): three completed scans and an image, or the failure of one scan
after the completion of those before it. -/
theorem assembleClasses_cases (ls : List LineClass) :
    (∃ a b c, scanLines declareLine ls enterScan1A = .ok a ∧
      scanLines labelLine ls a.enterScan1B = .ok b ∧
      scanLines wordLine ls b.enterScan2 = .ok c ∧ assembleClasses ls = c.finish) ∨
    scanLines declareLine ls enterScan1A = .error (assembleClasses ls) ∨
    (∃ a, scanLines declareLine ls enterScan1A = .ok a ∧
      scanLines labelLine ls a.enterScan1B = .error (assembleClasses ls)) ∨
    ∃ a b, scanLines declareLine ls enterScan1A = .ok a ∧
      scanLines labelLine ls a.enterScan1B = .ok b ∧
      scanLines wordLine ls b.enterScan2 = .error (assembleClasses ls) := by
  unfold assembleClasses
  split
  · rename_i bad h
    exact .inr (.inl h)
  · rename_i a ha
    split
    · rename_i bad h
      exact .inr (.inr (.inl ⟨a, ha, h⟩))
    · rename_i b hb
      split
      · rename_i bad h
        exact .inr (.inr (.inr ⟨a, b, ha, hb, h⟩))
      · rename_i c hc
        exact .inl ⟨a, b, c, ha, hb, hc, rfl⟩

theorem scan1A_failed (ls : List LineClass) (st bad : AsmState)
    (h : scanLines declareLine ls st = .error bad) : FailedState bad := by
  obtain ⟨_, _, _, _, _, _, hl⟩ := scanLines_error _ _ _ _ h
  obtain ⟨_, _, _, _, _, rfl⟩ := declareLine_error _ _ _ hl
  exact ⟨_, rfl, rfl⟩

theorem scan1B_failed (ls : List LineClass) (st bad : AsmState)
    (h : scanLines labelLine ls st = .error bad) : FailedState bad := by
  obtain ⟨_, _, _, _, _, _, hl⟩ := scanLines_error _ _ _ _ h
  obtain ⟨_, _, _, rfl⟩ := labelLine_error _ _ _ hl
  exact ⟨_, rfl, rfl⟩

theorem scan2_failed (ls : List LineClass) (st bad : AsmState)
    (h : scanLines wordLine ls st = .error bad) : FailedState bad := by
  obtain ⟨_, _, _, _, _, _, hl⟩ := scanLines_error _ _ _ _ h
  obtain ⟨m, ts, _, he⟩ := wordLine_error _ _ _ hl
  rcases encodeLine_error _ _ _ _ he with ⟨_, rfl⟩ | ⟨_, _, _, rfl⟩ | ⟨_, _, _, _, rfl⟩ |
    ⟨_, _, _, _, _, _, _, _, rfl⟩ <;> exact ⟨_, rfl, rfl⟩

/-- An assembly that is no image is a failed one, with one reason and no words (R85). -/
theorem assembleClasses_image_or_failed (ls : List LineClass) :
    (∃ img, (assembleClasses ls).phase = .image img) ∨ FailedState (assembleClasses ls) := by
  rcases assembleClasses_cases ls with ⟨_, _, c, _, _, _, he⟩ | h | ⟨_, _, h⟩ | ⟨_, _, _, _, h⟩
  · exact .inl ⟨c.toImage, by rw [he]; rfl⟩
  · exact .inr (scan1A_failed _ _ _ h)
  · exact .inr (scan1B_failed _ _ _ h)
  · exact .inr (scan2_failed _ _ _ h)

/-- What an image says of the scans that made it. -/
theorem assembleClasses_image (ls : List LineClass) (img : Image)
    (h : (assembleClasses ls).phase = .image img) :
    ∃ a b c, scanLines declareLine ls enterScan1A = .ok a ∧
      scanLines labelLine ls a.enterScan1B = .ok b ∧
      scanLines wordLine ls b.enterScan2 = .ok c ∧ assembleClasses ls = c.finish ∧
      img = c.toImage := by
  have hfail : ∀ st : AsmState, FailedState st → st.phase ≠ .image img := by
    rintro st ⟨r, hr, _⟩ hi
    rw [hr] at hi
    cases hi
  rcases assembleClasses_cases ls with ⟨a, b, c, ha, hb, hc, he⟩ | hs | ⟨_, _, hs⟩ | ⟨_, _, _, _, hs⟩
  · rw [he] at h
    exact ⟨a, b, c, ha, hb, hc, he, (AsmPhase.image.inj h).symm⟩
  · exact absurd h (hfail _ (scan1A_failed _ _ _ hs))
  · exact absurd h (hfail _ (scan1B_failed _ _ _ hs))
  · exact absurd h (hfail _ (scan2_failed _ _ _ hs))

/-- Scan 1A writes only the symbol table and its counter (R17, R19). -/
theorem scan1A_frame (ls : List LineClass) (a : AsmState)
    (h : scanLines declareLine ls enterScan1A = .ok a) :
    a.labels = [] ∧ a.words = [] ∧ a.warnings = [] := by
  refine scanLines_keeps declareLine
    (fun st => st.labels = [] ∧ st.words = [] ∧ st.warnings = []) ?_ ls _ a ⟨rfl, rfl, rfl⟩ h
  intro st l st' hP hl
  rcases declareLine_ok st st' l hl with ⟨rfl, _⟩ | ⟨_, _, _, _, _, rfl⟩
  · exact hP
  · exact hP

/-- Scan 1B writes only the label table and the instruction counter (R18, R19). -/
theorem scan1B_frame (ls : List LineClass) (a b : AsmState)
    (h : scanLines labelLine ls a.enterScan1B = .ok b) :
    b.vars = a.vars ∧ b.nextData = a.nextData ∧ b.words = a.words ∧ b.warnings = a.warnings := by
  refine scanLines_keeps labelLine (fun st => st.vars = a.vars ∧ st.nextData = a.nextData ∧
    st.words = a.words ∧ st.warnings = a.warnings) ?_ ls a.enterScan1B b ⟨rfl, rfl, rfl, rfl⟩ h
  intro st l st' hP hl
  rcases labelLine_ok st st' l hl with ⟨rfl, _⟩ | ⟨_, _, rfl⟩ | ⟨_, _, _, rfl⟩
  · exact hP
  · exact hP
  · exact hP

/-- Scan 2 reads the tables and writes none of them (R17, R18). -/
theorem scan2_frame (ls : List LineClass) (b c : AsmState)
    (h : scanLines wordLine ls b.enterScan2 = .ok c) :
    c.vars = b.vars ∧ c.labels = b.labels ∧ c.nextData = b.nextData ∧
      c.nextInstr = b.nextInstr := by
  refine scanLines_keeps wordLine (fun st => st.vars = b.vars ∧ st.labels = b.labels ∧
    st.nextData = b.nextData ∧ st.nextInstr = b.nextInstr) ?_ ls b.enterScan2 c ⟨rfl, rfl, rfl, rfl⟩ h
  intro st l st' hP hl
  rcases wordLine_ok st st' l hl with ⟨rfl, _⟩ | ⟨m, ts, _, he⟩
  · exact hP
  · obtain ⟨h1, h2, h3, h4⟩ := encodeLine_frame m ts st st' he
    exact ⟨h1.trans hP.1, h2.trans hP.2.1, h3.trans hP.2.2.1, h4.trans hP.2.2.2⟩

end Sys2Proof.Machine
end

