-- ==== Sys2Proof/Laws/Step.lean ====
section
/-! SUPPORT. What one step can do, said once (R140, R142), and what each meaning answers. -/

namespace Sys2Proof.Machine

theorem fetchWord_cases (s : State) (h : s.pc < s.cfg.cap) :
    (∃ w, s.cellAt s.pc = some (.numeric w) ∧ fetchWord s = .ok w) ∨
    (∃ t, s.cellAt s.pc = some (.raw t) ∧ fetchWord s = .error .nonNumericFetch) ∨
    (s.cellAt s.pc = none ∧ fetchWord s = .error .uninitRead) := by
  unfold fetchWord
  rcases memRead_cases s s.pc with ⟨c, _, hc, hm⟩ | ⟨_, hc, hm⟩ | ⟨hk, _⟩
  · cases c with
    | numeric w => exact .inl ⟨w, hc, by rw [hm]⟩
    | raw t => exact .inr (.inl ⟨t, hc, by rw [hm]⟩)
  · exact .inr (.inr ⟨hc, by rw [hm]⟩)
  · omega

theorem step_of_terminal (s : State) (h : s.state ≠ .running) : step s = .next s := by
  rw [step, trigger, if_pos h]

theorem step_of_capacity (s : State) (h : s.state = .running) (hp : s.cfg.cap ≤ s.pc) :
    step s = .next s.exhaust := by
  rw [step, trigger, if_neg (by simp [h]), if_pos hp]

theorem step_of_cycle (s : State) (h : s.state = .running) (hp : s.pc < s.cfg.cap) :
    step s = cycle s := by
  rw [step, trigger, if_neg (by simp [h]), if_neg (by omega)]

theorem step_at_word (s : State) (w : Int) (h : AtWord s w) : step s = runWord w s := by
  obtain ⟨hs, hp, hc⟩ := h
  rw [step_of_cycle s hs hp, cycle]
  rcases fetchWord_cases s hp with ⟨v, hv, hf⟩ | ⟨t, hv, hf⟩ | ⟨hv, hf⟩ <;>
    rw [hc] at hv <;> cases hv
  rw [hf]

/-- The word at `pc` is one word. -/
theorem AtWord_unique (s : State) (v w : Int) (hv : AtWord s v) (hw : AtWord s w) : v = w := by
  have := hv.2.2.symm.trans hw.2.2
  simpa using this

/-- The instruction at `pc` is one instruction. -/
theorem AtInstr_unique (s : State) (i j : Instr) (hi : AtInstr s i) (hj : AtInstr s j) : i = j := by
  obtain ⟨v, hv, hdv⟩ := hi
  obtain ⟨w, hw, hdw⟩ := hj
  rw [AtWord_unique s v w hv hw, hdw] at hdv
  exact (Except.ok.inj hdv).symm

/-- Everything a step can do. -/
theorem step_cases (s t : State) (h : step s = .next t) :
    (s.state ≠ .running ∧ t = s) ∨
    (s.state = .running ∧ s.cfg.cap ≤ s.pc ∧ t = s.exhaust) ∨
    (s.state = .running ∧ s.pc < s.cfg.cap ∧ s.cellAt s.pc = none ∧
      t = raiseFault .uninitRead s) ∨
    (∃ x, s.state = .running ∧ s.pc < s.cfg.cap ∧ s.cellAt s.pc = some (.raw x) ∧
      t = raiseFault .nonNumericFetch s) ∨
    (∃ w, AtWord s w ∧ (∀ i, decode w ≠ .ok i) ∧ t = unknownOpcodePath (wordOpcode w) s) ∨
    (∃ w i, AtWord s w ∧ decode w = .ok i ∧ exec i s = .next t) := by
  by_cases hs : s.state = .running
  · by_cases hp : s.pc < s.cfg.cap
    · rcases fetchWord_cases s hp with ⟨w, hc, hf⟩ | ⟨x, hc, hf⟩ | ⟨hc, hf⟩
      · right; right; right; right
        rw [step_at_word s w ⟨hs, hp, hc⟩, runWord] at h
        cases hd : decode w with
        | ok i =>
          rw [hd] at h
          exact .inr ⟨w, i, ⟨hs, hp, hc⟩, hd, h⟩
        | error e =>
          obtain ⟨op⟩ := e
          rw [hd] at h
          rw [decode_error w op hd] at h
          exact .inl ⟨w, ⟨hs, hp, hc⟩, fun i hi => by simp [hd] at hi,
            (Host.Outcome.next.inj h).symm⟩
      · rw [step_of_cycle s hs hp, cycle, hf] at h
        exact .inr (.inr (.inr (.inl ⟨x, hs, hp, hc, (Host.Outcome.next.inj h).symm⟩)))
      · rw [step_of_cycle s hs hp, cycle, hf] at h
        exact .inr (.inr (.inl ⟨hs, hp, hc, (Host.Outcome.next.inj h).symm⟩))
    · rw [step_of_capacity s hs (by omega)] at h
      exact .inr (.inl ⟨hs, by omega, (Host.Outcome.next.inj h).symm⟩)
  · rw [step_of_terminal s hs] at h
    exact .inl ⟨hs, (Host.Outcome.next.inj h).symm⟩

/-! ## What READ answers -/

/-- Everything READ can do (R100, R102). -/
theorem execRead_cases (k : Nat) (s t : State) (h : execRead k s = .next t) :
    (s.input = [] ∧ t = s) ∨
    ∃ item rest, s.input = item :: rest ∧
      ((∃ z, item = .inInt z ∧ (z < -9999 ∨ 9999 < z) ∧
          t = raiseFault .inputRange (s.withInput rest)) ∨
       ((∀ z, item = .inInt z → -9999 ≤ z ∧ z ≤ 9999) ∧
          ∃ c, (∀ z, item = .inInt z → c = .numeric z) ∧ (∀ x, item = .inTok x → c = .raw x) ∧
            t = storeCell k c (s.withInput rest))) := by
  unfold execRead at h
  split at h
  · rename_i hi
    exact .inl ⟨hi, (Host.Outcome.next.inj h).symm⟩
  · rename_i item rest hi
    refine .inr ⟨item, rest, hi, ?_⟩
    have ht := (Host.Outcome.next.inj h).symm
    cases item with
    | inInt z =>
      simp only [acceptInput] at ht
      by_cases hz : inRange z = true
      · rw [if_pos hz] at ht
        refine .inr ⟨fun y hy => ?_, .numeric z, fun y hy => ?_, fun x hx => ?_, ht⟩
        · cases hy
          exact (inRange_iff z).1 hz
        · cases hy
          rfl
        · cases hx
      · rw [if_neg hz] at ht
        exact .inl ⟨z, rfl, (not_inRange_iff z).1 (by simpa using hz), ht⟩
    | inTok x =>
      refine .inr ⟨fun y hy => ?_, .raw x, fun y hy => ?_, fun y hy => ?_, ht⟩
      · cases hy
      · cases hy
      · cases hy
        rfl

end Sys2Proof.Machine
end

