-- ==== Sys2Proof/Laws/Exec.lean ====
section
/-! SUPPORT. Everything an instruction can do, said once over all instructions: the shapes of the next
state and, in each, what the invariant gives of the values written. -/

namespace Sys2Proof.Machine

/-- A cell of a lawful state is lawful (R5, R15). -/
theorem cellAt_wf (s : State) (a : Nat) (c : Cell) (h : Inv s) (hc : s.cellAt a = some c) :
    c.wf = true := by
  obtain ⟨hcfg, -, -, hm, -, -⟩ := h
  have hfill : ∀ d, s.cfg.fill = some d → d.wf = true := by
    intro d hd
    have := (Bool.and_eq_true _ _ ▸ hcfg).2
    rw [hd] at this
    exact this
  rw [State.cellAt] at hc
  generalize hmm : s.mem = m at hc hm
  have hall := hm.2
  clear hmm hm
  induction m with
  | nil => exact hfill c hc
  | cons e m ih =>
    rw [Memory.read_cons] at hc
    split at hc
    · cases hc
      exact (hall e List.mem_cons_self).2.2
    · exact ih hc fun d hd => hall d (List.mem_cons_of_mem _ hd)

/-- A number of a lawful state is in range. -/
theorem cellAt_inRange (s : State) (a : Nat) (w : Int) (h : Inv s)
    (hc : s.cellAt a = some (.numeric w)) : inRange w = true := cellAt_wf s a _ h hc

/-- The remainder by a number in range is in range (R122). -/
theorem tmod_inRange (a b : Int) (hb : b ≠ 0) (h : inRange b = true) :
    inRange (tmod a b) = true := by
  rw [inRange_iff] at *
  have := tmod_natAbs_lt a b hb
  omega

/-- A literal of a well-formed instruction is in range. -/
theorem literal_inRange (k : Nat) (h : k ≤ 99) : inRange (literal k) = true := by
  rw [inRange_iff, literal]
  omega

/-- The instruction writes the accumulator when it completes (R10). -/
abbrev WritesAcc (i : Instr) : Prop :=
  i.opcode = 20 ∨ i.opcode = 22 ∨ (30 ≤ i.opcode ∧ i.opcode ≤ 39)

/-- The instruction jumps to `k` in `s` (R143 to R145). -/
abbrev JumpsTo (s : State) (k : Nat) (i : Instr) : Prop :=
  i = .jump k ∨ (i = .jumpn k ∧ s.acc < 0) ∨ (i = .jumpz k ∧ s.acc = 0)

/-- The shapes of the next state of an instruction `i` in the state `s`. -/
inductive Outcomes (i : Instr) (s : State) : State → Prop where
  /-- READ with no input: nothing changes. -/
  | hold (k : Nat) (hi : i = .read k) (hs : s.input = []) : Outcomes i s s
  /-- A fault of an instruction that is not READ. -/
  | fault (c : FaultCause) (hi : i.opcode ≠ 10) : Outcomes i s (raiseFault c s)
  /-- A fault of READ, its item gone. -/
  | readFault (k : Nat) (item : InputItem) (rest : List InputItem) (c : FaultCause)
      (hi : i = .read k) (hs : s.input = item :: rest) :
      Outcomes i s (raiseFault c (s.withInput rest))
  /-- READ stores what it took. -/
  | read (k : Nat) (item : InputItem) (rest : List InputItem) (c : Cell) (hi : i = .read k)
      (hs : s.input = item :: rest) (hk : k < s.cfg.cap) (hc : Inv s → c.wf = true) :
      Outcomes i s
        { s with input := rest, mem := s.mem.write s.cfg.fill k c, pc := s.pc + 1 }
  /-- WRITE emits one item. -/
  | write (k : Nat) (o : OutputItem) (hi : i = .write k) (ho : Inv s → o.wf = true) :
      Outcomes i s { s with output := s.output ++ [o], pc := s.pc + 1 }
  /-- STORE writes the accumulator. -/
  | store (k : Nat) (hi : i = .store k) (hk : k < s.cfg.cap) :
      Outcomes i s { s with mem := s.mem.write s.cfg.fill k (.numeric s.acc), pc := s.pc + 1 }
  /-- A load or an arithmetic opcode writes the accumulator. -/
  | acc (v : Int) (hi : WritesAcc i) (hv : Inv s → i.wf = true → inRange v = true) :
      Outcomes i s { s with acc := v, pc := s.pc + 1 }
  /-- A division by zero. -/
  | divZero (hi : WritesAcc i) :
      Outcomes i s { s with acc := 0, pc := s.pc + 1, diag := s.diag ++ [.divByZero s.pc] }
  /-- A taken jump. -/
  | jump (k : Nat) (hi : JumpsTo s k i) : Outcomes i s { s with pc := k }
  /-- An untaken conditional jump. -/
  | untaken (k : Nat) (hi : (i = .jumpn k ∧ 0 ≤ s.acc) ∨ (i = .jumpz k ∧ s.acc ≠ 0)) :
      Outcomes i s { s with pc := s.pc + 1 }
  /-- HALT. -/
  | halt (k : Nat) (hi : i = .halt k) : Outcomes i s { s with state := .halted }

theorem opcode_of_writesAcc (i : Instr) (hi : WritesAcc i) : i.opcode ≠ 10 := by
  unfold WritesAcc at hi
  omega

theorem outcomes_finishChecked (i : Instr) (s : State) (r : Int) (hi : WritesAcc i) :
    Outcomes i s (finishChecked r s) := by
  rcases finishChecked_cases r s with ⟨hr, h⟩ | ⟨_, h⟩
  · rw [h]
    exact .acc r hi fun _ _ => (inRange_iff r).2 hr
  · rw [h]
    exact .fault _ (opcode_of_writesAcc i hi)

theorem outcomes_divideBy (i : Instr) (s : State) (b : Int) (hi : WritesAcc i) :
    Outcomes i s (divideBy b s) := by
  rcases divideBy_cases b s with ⟨_, h⟩ | ⟨_, h⟩
  · rw [h]
    exact .divZero hi
  · rw [h]
    exact outcomes_finishChecked i s _ hi

theorem outcomes_moduloBy (i : Instr) (s : State) (b : Int) (hi : WritesAcc i)
    (hb : Inv s → i.wf = true → inRange b = true) : Outcomes i s (moduloBy b s) := by
  rcases moduloBy_cases b s with ⟨_, h⟩ | ⟨hb0, h⟩
  · rw [h]
    exact .fault _ (opcode_of_writesAcc i hi)
  · rw [h]
    exact .acc _ hi fun hs hw => tmod_inRange _ _ hb0 (hb hs hw)

theorem outcomes_withNumber (i : Instr) (s : State) (k : Nat) (f : Int → State)
    (hi : WritesAcc i) (hf : ∀ w, s.cellAt k = some (.numeric w) → Outcomes i s (f w)) :
    Outcomes i s (withNumber k s f) := by
  rcases withNumber_cases k s f with ⟨w, _, hc, h⟩ | ⟨_, _, _, h⟩ | ⟨_, _, h⟩ | ⟨_, h⟩
  · rw [h]
    exact hf w hc
  all_goals
    rw [h]
    exact .fault _ (opcode_of_writesAcc i hi)

/-- Everything an instruction can do. -/
theorem exec_outcomes (i : Instr) (s t : State) (h : exec i s = .next t) : Outcomes i s t := by
  cases i with
  | read k =>
    rcases execRead_cases k s t h with ⟨hs, rfl⟩ | ⟨item, rest, hs, hr⟩
    · exact .hold k rfl hs
    · rcases hr with ⟨z, hz, hrange, rfl⟩ | ⟨hz, c, hn, hx, rfl⟩
      · exact .readFault k item rest _ rfl hs
      · rcases storeCell_cases k c (s.withInput rest) with ⟨hk, he⟩ | ⟨_, he⟩
        · rw [he]
          refine .read k item rest c rfl hs hk fun hinv => ?_
          cases item with
          | inInt z =>
            rw [hn z rfl]
            exact (inRange_iff z).2 (hz z rfl)
          | inTok x =>
            rw [hx x rfl]
            exact hinv.2.2.2.2.1 (.inTok x) (by rw [hs]; exact List.mem_cons_self)
        · rw [he]
          exact .readFault k item rest _ rfl hs
  | write k =>
    cases h
    rcases withCell_cases k s (fun c => (s.emit (outputOf c)).advance) with
      ⟨c, _, hc, he⟩ | ⟨_, _, he⟩ | ⟨_, he⟩
    · rw [he]
      refine .write k (outputOf c) rfl fun hinv => ?_
      have := cellAt_wf s k c hinv hc
      cases c <;> exact this
    all_goals
      rw [he]
      exact .fault _ (by simp [Instr.opcode])
  | load k =>
    cases h
    exact outcomes_withNumber _ s k _ (.inl rfl) fun w hw =>
      .acc w (.inl rfl) fun hinv _ => cellAt_inRange s k w hinv hw
  | store k =>
    cases h
    rcases storeCell_cases k (.numeric s.acc) s with ⟨hk, he⟩ | ⟨_, he⟩
    · rw [he]
      exact .store k rfl hk
    · rw [he]
      exact .fault _ (by simp [Instr.opcode])
  | loadi k =>
    cases h
    exact .acc _ (.inr (.inl rfl)) fun _ hw => literal_inRange k ((Instr.wf_iff _).1 hw)
  | add k =>
    have ha : WritesAcc (.add k) := .inr (.inr (by simp [Instr.opcode]))
    cases h
    exact outcomes_withNumber _ s k _ ha fun w _ => outcomes_finishChecked _ s _ ha
  | subt k =>
    have ha : WritesAcc (.subt k) := .inr (.inr (by simp [Instr.opcode]))
    cases h
    exact outcomes_withNumber _ s k _ ha fun w _ => outcomes_finishChecked _ s _ ha
  | div k =>
    have ha : WritesAcc (.div k) := .inr (.inr (by simp [Instr.opcode]))
    cases h
    exact outcomes_withNumber _ s k _ ha fun w _ => outcomes_divideBy _ s _ ha
  | mod k =>
    have ha : WritesAcc (.mod k) := .inr (.inr (by simp [Instr.opcode]))
    cases h
    exact outcomes_withNumber _ s k _ ha fun w hw =>
      outcomes_moduloBy _ s _ ha fun hinv _ => cellAt_inRange s k w hinv hw
  | mult k =>
    have ha : WritesAcc (.mult k) := .inr (.inr (by simp [Instr.opcode]))
    cases h
    exact outcomes_withNumber _ s k _ ha fun w _ => outcomes_finishChecked _ s _ ha
  | addi k =>
    have ha : WritesAcc (.addi k) := .inr (.inr (by simp [Instr.opcode]))
    cases h
    exact outcomes_finishChecked _ s _ ha
  | subti k =>
    have ha : WritesAcc (.subti k) := .inr (.inr (by simp [Instr.opcode]))
    cases h
    exact outcomes_finishChecked _ s _ ha
  | divi k =>
    have ha : WritesAcc (.divi k) := .inr (.inr (by simp [Instr.opcode]))
    cases h
    exact outcomes_divideBy _ s _ ha
  | modi k =>
    have ha : WritesAcc (.modi k) := .inr (.inr (by simp [Instr.opcode]))
    cases h
    exact outcomes_moduloBy _ s _ ha fun _ hw =>
      literal_inRange k ((Instr.wf_iff _).1 hw)
  | multi k =>
    have ha : WritesAcc (.multi k) := .inr (.inr (by simp [Instr.opcode]))
    cases h
    exact outcomes_finishChecked _ s _ ha
  | jump k =>
    cases h
    exact .jump k (.inl rfl)
  | jumpn k =>
    cases h
    by_cases ha : s.acc < 0
    · rw [show branchIf (accNegative s) k s = { s with pc := k } by
        simp [branchIf, accNegative, ha, State.jumpTo]]
      exact .jump k (.inr (.inl ⟨rfl, ha⟩))
    · rw [show branchIf (accNegative s) k s = { s with pc := s.pc + 1 } by
        simp [branchIf, accNegative, ha, State.advance]]
      exact .untaken k (.inl ⟨rfl, by omega⟩)
  | jumpz k =>
    cases h
    by_cases ha : s.acc = 0
    · rw [show branchIf (accZero s) k s = { s with pc := k } by
        simp [branchIf, accZero, ha, State.jumpTo]]
      exact .jump k (.inr (.inr ⟨rfl, ha⟩))
    · rw [show branchIf (accZero s) k s = { s with pc := s.pc + 1 } by
        simp [branchIf, accZero, ha, State.advance]]
      exact .untaken k (.inr ⟨rfl, ha⟩)
  | halt k =>
    cases h
    exact .halt k rfl

/-- Every instruction answers a next state. -/
theorem exec_answers (i : Instr) (s : State) : ∃ t, exec i s = .next t := by
  cases i with
  | read k =>
    cases hs : s.input <;> simp [exec, execRead, hs]
  | _ => exact ⟨_, rfl⟩

/-! ## The step -/

/-- A state is at one instruction only while it is Running below `CAP`. -/
theorem running_of_atInstr (s : State) (i : Instr) (h : AtInstr s i) :
    s.state = .running ∧ s.pc < s.cfg.cap := by
  obtain ⟨w, hw, _⟩ := h
  exact ⟨hw.1, hw.2.1⟩

/-- At an instruction a step is that instruction. -/
theorem step_atInstr (s : State) (i : Instr) (h : AtInstr s i) : step s = exec i s := by
  obtain ⟨w, hw, hd⟩ := h
  rw [step_at_word s w hw, runWord, hd]

/-- Everything a step can do, the instructions by their outcomes. -/
theorem step_outcomes (s t : State) (h : step s = .next t) :
    (s.state ≠ .running ∧ t = s) ∨
    (s.state = .running ∧ s.cfg.cap ≤ s.pc ∧ t = s.exhaust) ∨
    (∃ c, s.state = .running ∧ s.pc < s.cfg.cap ∧ (∀ i, ¬ AtInstr s i) ∧ t = raiseFault c s) ∨
    (∃ w, AtWord s w ∧ (∀ i, ¬ AtInstr s i) ∧ t = unknownOpcodePath (wordOpcode w) s) ∨
    (∃ i, AtInstr s i ∧ i.wf = true ∧ Outcomes i s t) := by
  have none_at : ∀ c, s.cellAt s.pc = c → (∀ w, c ≠ some (.numeric w)) → ∀ i, ¬ AtInstr s i :=
    fun c hc hn i ⟨w, hw, _⟩ => hn w (hc.symm.trans hw.2.2)
  rcases step_cases s t h with h | h | ⟨hs, hp, hc, ht⟩ | ⟨x, hs, hp, hc, ht⟩ | ⟨w, hw, hd, ht⟩ |
    ⟨w, i, hw, hd, he⟩
  · exact .inl h
  · exact .inr (.inl h)
  · exact .inr (.inr (.inl ⟨_, hs, hp, none_at _ hc (by simp), ht⟩))
  · exact .inr (.inr (.inl ⟨_, hs, hp, none_at _ hc (by simp), ht⟩))
  · refine .inr (.inr (.inr (.inl ⟨w, hw, ?_, ht⟩)))
    rintro i ⟨v, hv, hdv⟩
    exact hd i (AtWord_unique s v w hv hw ▸ hdv)
  · exact .inr (.inr (.inr (.inr ⟨i, ⟨w, hw, hd⟩,
      (Instr.wf_iff i).2 (word_of_decode w i hd).2, exec_outcomes i s t he⟩)))

end Sys2Proof.Machine
end

