-- ==== Sys2Proof/Laws/Lexer.lean ====
section
/-! SUPPORT. The text classifier (R58 to R61): what `tokens`, `trim` and the lexical classes do, each
said once, in the terms of Safety.lean. -/

namespace Sys2Proof.Machine

/-! ## Blanks and trimming -/

theorem isSeparator_iff (c : Char) : isSeparator c = true ↔ IsBlank c := by
  simp [isSeparator]

theorem allBlank_nil : AllBlank [] := fun _ h => absurd h List.not_mem_nil

/-- Blanks in front of a text are dropped. -/
theorem dropWhile_blanks (pre x : Text) (h : AllBlank pre) :
    (pre ++ x).dropWhile isSeparator = x.dropWhile isSeparator := by
  induction pre with
  | nil => rfl
  | cons c cs ih =>
    rw [List.cons_append, List.dropWhile_cons_of_pos ((isSeparator_iff c).2 (h c (by simp))),
      ih fun d hd => h d (by simp [hd])]

/-- What dropping the blanks in front of a text leaves and what it takes. -/
theorem dropWhile_split (x : Text) :
    ∃ pre, AllBlank pre ∧ x = pre ++ x.dropWhile isSeparator ∧
      ∀ c, (x.dropWhile isSeparator).head? = some c → ¬ IsBlank c := by
  induction x with
  | nil => exact ⟨[], allBlank_nil, rfl, fun c hc => (by cases hc)⟩
  | cons c cs ih =>
    by_cases hc : isSeparator c = true
    · obtain ⟨pre, h1, h2, h3⟩ := ih
      rw [List.dropWhile_cons_of_pos hc]
      exact ⟨c :: pre, by simpa [AllBlank, (isSeparator_iff c).1 hc] using h1, by
        rw [List.cons_append, ← h2], h3⟩
    · rw [List.dropWhile_cons_of_neg hc]
      refine ⟨[], allBlank_nil, rfl, fun d hd => ?_⟩
      rw [List.head?_cons, Option.some.injEq] at hd
      rwa [← hd, ← isSeparator_iff]

/-- A text that does not begin with a blank loses nothing in front. -/
theorem dropWhile_of_head (x : Text) (h : ∀ c, x.head? = some c → ¬ IsBlank c) :
    x.dropWhile isSeparator = x := by
  cases x with
  | nil => rfl
  | cons c cs =>
    exact List.dropWhile_cons_of_neg fun hc => h c rfl ((isSeparator_iff c).1 hc)

/-- Blanks around a text that neither begins nor ends with one are all that `trim` drops. -/
theorem trim_of_trimsTo (line t : Text) (h : TrimsTo line t) : trim line = t := by
  obtain ⟨⟨pre, post, h1, h2, rfl⟩, h3, h4⟩ := h
  unfold trim
  have h2' : AllBlank post.reverse := fun c hc => h2 c (by simpa using hc)
  have h4' : t.reverse.dropWhile isSeparator = t.reverse :=
    dropWhile_of_head _ fun c hc => h4 c (by simpa using hc)
  rw [List.append_assoc, dropWhile_blanks _ _ h1]
  by_cases ht : t = []
  · subst ht
    have := dropWhile_blanks post [] h2
    rw [List.append_nil] at this
    simp [this]
  · have hh : ∀ c, (t ++ post).head? = some c → ¬ IsBlank c := by
      intro c hc
      cases t with
      | nil => exact absurd rfl ht
      | cons d ds => exact h3 c hc
    rw [dropWhile_of_head _ hh, List.reverse_append, dropWhile_blanks _ _ h2', h4',
      List.reverse_reverse]

/-- What `trim` answers is the text trimmed. -/
theorem trimsTo_trim (line : Text) : TrimsTo line (trim line) := by
  obtain ⟨pre, h1, h2, h3⟩ := dropWhile_split line
  obtain ⟨post, h4, h5, h6⟩ := dropWhile_split (line.dropWhile isSeparator).reverse
  have h7 : line.dropWhile isSeparator = trim line ++ post.reverse := by
    have := congrArg List.reverse h5
    rwa [List.reverse_reverse, List.reverse_append] at this
  refine ⟨⟨pre, post.reverse, h1, fun c hc => h4 c (by simpa using hc), ?_⟩, ?_, ?_⟩
  · rw [List.append_assoc, ← h7, ← h2]
  · intro c hc
    refine h3 c ?_
    rw [h7]
    cases ht : trim line with
    | nil => simp [ht] at hc
    | cons d ds => simpa [ht] using hc
  · intro c hc
    refine h6 c ?_
    rwa [trim, List.getLast?_reverse] at hc

/-! ## Tokens -/

@[simp] theorem tokens_nil : tokens [] = [] := rfl

theorem tokens_gap (c : Char) (rest : Text) (h : IsBlank c) : tokens (c :: rest) = tokens rest := by
  rw [tokens, tokensFrom, if_pos ((isSeparator_iff c).2 h)]
  rfl

theorem tokens_equals (rest : Text) : tokens ('=' :: rest) = ['='] :: tokens rest := rfl

/-- An open token takes the characters that neither separate nor are `=`. -/
theorem tokensFrom_word (w rest current : Text) (h : ∀ c ∈ w, ¬ IsBlank c ∧ c ≠ '=') :
    tokensFrom (w ++ rest) current = tokensFrom rest (w.reverse ++ current) := by
  induction w generalizing current with
  | nil => rfl
  | cons c cs ih =>
    obtain ⟨h1, h2⟩ := h c (by simp)
    rw [List.cons_append, tokensFrom, if_neg fun hc => h1 ((isSeparator_iff c).1 hc), if_neg h2,
      ih _ fun d hd => h d (by simp [hd]), List.reverse_cons, List.append_assoc]
    rfl

/-- A longest run of other characters is one token. -/
theorem tokens_word (w rest : Text) (hw : w ≠ []) (hc : ∀ c ∈ w, ¬ IsBlank c ∧ c ≠ '=')
    (hr : ∀ c, rest.head? = some c → IsBlank c ∨ c = '=') : tokens (w ++ rest) = w :: tokens rest := by
  have hclose : ∀ ts, closeToken w.reverse ts = w :: ts := fun ts => by simp [closeToken, hw]
  rw [tokens, tokensFrom_word w rest [] hc, List.append_nil]
  cases rest with
  | nil => rw [tokensFrom, hclose]; rfl
  | cons c cs =>
    rcases hr c rfl with h | h
    · rw [tokensFrom, if_pos ((isSeparator_iff c).2 h), hclose, tokens_gap c cs h]
      rfl
    · subst h
      rw [tokensFrom, if_neg (by decide), if_pos rfl, hclose]
      rfl

/-! ## Lexical classes -/

theorem isIdentifier_iff (t : Text) : isIdentifier t = true ↔ IdentifierText t := by
  cases t with
  | nil => simp [isIdentifier]
  | cons c cs =>
    constructor
    · intro h
      simp only [isIdentifier, isNameStart, isNameChar, Bool.and_eq_true, Bool.or_eq_true,
        List.all_eq_true, decide_eq_true_eq] at h
      exact ⟨c, cs, rfl, h.1, fun d hd => by have := h.2 d hd; tauto⟩
    · rintro ⟨c', cs', he, h1, h2⟩
      cases he
      simp only [isIdentifier, isNameStart, isNameChar, Bool.and_eq_true, Bool.or_eq_true,
        List.all_eq_true, decide_eq_true_eq]
      exact ⟨h1, fun d hd => by have := h2 d hd; tauto⟩

/-- The value of digits, front to back, is their value from the units on. -/
theorem digitsValue_eq (t : Text) : digitsValue t = decimalValue t := by
  unfold digitsValue decimalValue
  rw [List.foldl_eq_foldr_reverse]
  induction t.reverse with
  | nil => rfl
  | cons c cs ih =>
    rw [List.foldr_cons, List.map_cons, Nat.ofDigits_cons, ih]
    change _ * 10 + (c.toNat - 48) = (c.toNat - 48) + 10 * _
    omega

theorem parseLiteral_of (t : Text) (h : LiteralText t) : parseLiteral t = some (decimalValue t) := by
  obtain ⟨h1, h2⟩ := h
  rw [parseLiteral, if_pos, digitsValue_eq]
  simp only [Bool.and_eq_true]
  exact ⟨by simpa using h1, h2⟩

theorem parseLiteral_eq_none (t : Text) (h : ¬ LiteralText t) : parseLiteral t = none := by
  rw [parseLiteral, if_neg]
  simp only [Bool.and_eq_true]
  exact fun hc => h ⟨by simpa using hc.1, hc.2⟩

theorem parseLiteral_iff (t : Text) (n : Nat) :
    parseLiteral t = some n ↔ LiteralText t ∧ n = decimalValue t := by
  by_cases h : LiteralText t
  · rw [parseLiteral_of t h]
    exact ⟨fun hn => ⟨h, (Option.some.inj hn).symm⟩, fun hn => by rw [hn.2]⟩
  · rw [parseLiteral_eq_none t h]
    exact ⟨fun hn => (by cases hn), fun hn => absurd hn.1 h⟩

/-- A literal does not begin with a sign. -/
theorem literal_no_sign (c : Char) (cs : Text) (h : LiteralText (c :: cs)) : c ≠ '-' ∧ c ≠ '+' := by
  have hc := List.all_eq_true.1 h.2 c (by simp)
  constructor <;> rintro rfl <;> exact absurd hc (by decide)

theorem parseInteger_iff (t : Text) (v : Int) : parseInteger t = some v ↔ IntegerText t v := by
  cases t with
  | nil =>
    constructor
    · intro h; cases h
    · rintro ⟨ds, hd, ⟨h, _⟩ | ⟨h, _⟩ | ⟨h, _⟩⟩
      · exact absurd h.symm hd.1
      · cases h
      · cases h
  | cons c cs =>
    simp only [parseInteger]
    constructor
    · intro h
      split at h
      · rename_i hc
        obtain ⟨n, hn, rfl⟩ := Option.map_eq_some_iff.1 h
        obtain ⟨hl, rfl⟩ := (parseLiteral_iff _ _).1 hn
        exact ⟨cs, hl, .inr (.inr ⟨by rw [hc], rfl⟩)⟩
      · split at h
        · rename_i hc
          obtain ⟨n, hn, rfl⟩ := Option.map_eq_some_iff.1 h
          obtain ⟨hl, rfl⟩ := (parseLiteral_iff _ _).1 hn
          exact ⟨cs, hl, .inr (.inl ⟨by rw [hc], rfl⟩)⟩
        · obtain ⟨n, hn, rfl⟩ := Option.map_eq_some_iff.1 h
          obtain ⟨hl, rfl⟩ := (parseLiteral_iff _ _).1 hn
          exact ⟨c :: cs, hl, .inl ⟨rfl, rfl⟩⟩
    · rintro ⟨ds, hd, ⟨rfl, rfl⟩ | ⟨h, rfl⟩ | ⟨h, rfl⟩⟩
      · obtain ⟨h1, h2⟩ := literal_no_sign c cs hd
        rw [if_neg h1, if_neg h2, parseLiteral_of _ hd]
        rfl
      · cases h
        rw [if_neg (by decide), if_pos rfl, parseLiteral_of _ hd]
        rfl
      · cases h
        rw [if_pos rfl, parseLiteral_of _ hd]
        rfl

/-- What `declaredValue` accepts: the three surface forms of an unreserved identifier (R60 step 4). -/
theorem declaredValue_iff (tok : Text) (rest : List Text) (v : Int) :
    declaredValue tok rest = some v ↔ DeclarationTokens tok rest v := by
  unfold declaredValue
  by_cases hn : isIdentifier tok = true ∧ opcodeOf tok = none
  · rw [if_pos (by simp [hn])]
    have h1 := (isIdentifier_iff tok).1 hn.1
    constructor
    · intro h
      refine ⟨h1, hn.2, ?_⟩
      split at h
      · cases h; exact .inl ⟨rfl, rfl⟩
      · rename_i t
        exact .inr ⟨t, .inl rfl, (parseInteger_iff _ _).1 h⟩
      · rename_i e t
        split at h
        · rename_i he
          exact .inr ⟨t, .inr (by rw [he]), (parseInteger_iff _ _).1 h⟩
        · cases h
      · cases h
    · rintro ⟨_, _, ⟨rfl, rfl⟩ | ⟨t, rfl | rfl, ht⟩⟩
      · rfl
      · exact (parseInteger_iff _ _).2 ht
      · simpa using (parseInteger_iff _ _).2 ht
  · rw [if_neg (by simpa using hn)]
    constructor
    · intro h; cases h
    · rintro ⟨h1, h2, _⟩
      exact absurd ⟨(isIdentifier_iff tok).2 h1, h2⟩ hn

end Sys2Proof.Machine
end

