-- ==== Sys2Proof/Laws/PerInstr.lean ====
section
/-! SUPPORT. Facts about the syntax of every instruction, one lemma per constructor. -/

namespace Sys2Proof.Laws.EncodesInRange

open Sys2Proof.Machine

/-- The word of a well-formed instruction is from 1000 to 4399, is a lawful cell value, and has the
instruction's opcode as its two most significant digits (R50, R65, R87). -/
def Statement (i : Instr) : Prop :=
  i.wf = true →
    1000 ≤ encode i ∧ encode i ≤ 4399 ∧ inRange (encode i) = true ∧
      encode i / 100 = (i.opcode : Int)

/-- The bounds follow from an opcode of 10 to 43 and an operand of two digits. -/
theorem of_bounds (i : Instr) (hlo : 10 ≤ i.opcode) (hhi : i.opcode ≤ 43) : Statement i := by
  intro h
  have hk : i.operand ≤ 99 := (Instr.wf_iff i).1 h
  have he : encode i = (i.opcode : Int) * 100 + (i.operand : Int) := by
    simp [encode, encodeWord]
  rw [inRange_iff, he]
  omega

theorem read (k : Nat) : Statement (.read k) :=
  of_bounds _ (by simp [Instr.opcode]) (by simp [Instr.opcode])

theorem write (k : Nat) : Statement (.write k) :=
  of_bounds _ (by simp [Instr.opcode]) (by simp [Instr.opcode])

theorem load (k : Nat) : Statement (.load k) :=
  of_bounds _ (by simp [Instr.opcode]) (by simp [Instr.opcode])

theorem store (k : Nat) : Statement (.store k) :=
  of_bounds _ (by simp [Instr.opcode]) (by simp [Instr.opcode])

theorem loadi (k : Nat) : Statement (.loadi k) :=
  of_bounds _ (by simp [Instr.opcode]) (by simp [Instr.opcode])

theorem add (k : Nat) : Statement (.add k) :=
  of_bounds _ (by simp [Instr.opcode]) (by simp [Instr.opcode])

theorem subt (k : Nat) : Statement (.subt k) :=
  of_bounds _ (by simp [Instr.opcode]) (by simp [Instr.opcode])

theorem div (k : Nat) : Statement (.div k) :=
  of_bounds _ (by simp [Instr.opcode]) (by simp [Instr.opcode])

theorem mod (k : Nat) : Statement (.mod k) :=
  of_bounds _ (by simp [Instr.opcode]) (by simp [Instr.opcode])

theorem mult (k : Nat) : Statement (.mult k) :=
  of_bounds _ (by simp [Instr.opcode]) (by simp [Instr.opcode])

theorem addi (k : Nat) : Statement (.addi k) :=
  of_bounds _ (by simp [Instr.opcode]) (by simp [Instr.opcode])

theorem subti (k : Nat) : Statement (.subti k) :=
  of_bounds _ (by simp [Instr.opcode]) (by simp [Instr.opcode])

theorem divi (k : Nat) : Statement (.divi k) :=
  of_bounds _ (by simp [Instr.opcode]) (by simp [Instr.opcode])

theorem modi (k : Nat) : Statement (.modi k) :=
  of_bounds _ (by simp [Instr.opcode]) (by simp [Instr.opcode])

theorem multi (k : Nat) : Statement (.multi k) :=
  of_bounds _ (by simp [Instr.opcode]) (by simp [Instr.opcode])

theorem jump (k : Nat) : Statement (.jump k) :=
  of_bounds _ (by simp [Instr.opcode]) (by simp [Instr.opcode])

theorem jumpn (k : Nat) : Statement (.jumpn k) :=
  of_bounds _ (by simp [Instr.opcode]) (by simp [Instr.opcode])

theorem jumpz (k : Nat) : Statement (.jumpz k) :=
  of_bounds _ (by simp [Instr.opcode]) (by simp [Instr.opcode])

theorem halt (k : Nat) : Statement (.halt k) :=
  of_bounds _ (by simp [Instr.opcode]) (by simp [Instr.opcode])

end Sys2Proof.Laws.EncodesInRange
end

