-- ==== Sys2Proof/Tests/Slice0.lean ====
section
/-! SUPPORT. Small tests on fixed values, and a witness for the hypotheses of every statement that has
some. Expected results are the spec's own: the encoding table (30_encoding.md R54), the vectors of
95_test_vectors.md (named A, I, O, L, M, X, J, Q, P there) and the examples of the rules. -/

namespace Sys2Proof.Tests

open Sys2Proof.Machine

/-- A Running state with these registers and cells (addresses rising), `CAP = 100`, FILL `Uninit`. -/
def st (acc : Int) (pc : Nat) (cells : Memory) (input : List InputItem := []) : State :=
  { State.reset with acc := acc, pc := pc, mem := cells, input := input }

/-- The same with `CAP = 50`. -/
def st50 (acc : Int) (pc : Nat) (cells : Memory) (input : List InputItem := []) : State :=
  { st acc pc cells input with cfg := { cap := 50, fill := none } }

/-- The state a step answers, the state itself where it answers none. -/
def after (s : State) : State :=
  match step s with
  | .next t => t
  | .fault _ => s
  | .refused _ => s

/-- What the vectors list of a state. -/
def look (s : State) : Int × Nat × RunState := (s.acc, s.pc, s.state)

/-- A numeric cell at an address. -/
def num (a : Nat) (w : Int) : Nat × Cell := (a, .numeric w)

/-- A raw cell at an address. -/
def raw (a : Nat) (t : String) : Nat × Cell := (a, .raw t.toList)

/-- Source lines. -/
def src (ls : List String) : List Text := ls.map String.toList

/-- The image of a program that assembles, an empty one for a program that does not. -/
def imageOf (ls : List String) : Image :=
  match (assemble (src ls)).phase with
  | .image img => img
  | _ => { origin := 0, data := [], words := [], vars := [], labels := [], warnings := [] }

/-! ## Well-formedness refuses ill-formed terms -/

theorem test_wf_refuses_operand_100 : (Instr.load 100).wf = false := by decide

theorem test_wf_refuses_halt_operand_100 : (Instr.halt 100).wf = false := by decide

theorem test_wf_accepts_operand_99 : (Instr.multi 99).wf = true := by decide

theorem test_wf_refuses_five_digit_cells :
    (Cell.numeric 10000).wf = false ∧ (Cell.numeric (-10000)).wf = false := by decide

theorem test_wf_refuses_empty_token : (Cell.raw []).wf = false := by decide

theorem test_wf_refuses_no_memory : Config.wf { cap := 0, fill := none } = false := by decide

theorem test_wf_refuses_bad_fill :
    Config.wf { cap := 100, fill := some (.numeric 10000) } = false := by decide

theorem test_wf_refuses_unsorted_memory :
    ¬ Memory.wf Config.recommended [num 3 1, num 2 1] := by decide

theorem test_wf_refuses_listed_fill :
    ¬ Memory.wf { cap := 100, fill := some (.numeric 0) } [num 3 0] := by decide

theorem test_wf_refuses_cell_beyond_cap : ¬ Memory.wf Config.recommended [num 100 1] := by decide

/-! ## Decoding: words written out from the format D4 and the opcode map (R50, R54) -/

theorem test_decode_input_output :
    decode (1 * 1000 + 0 * 100 + 0 * 10 + 7) = .ok (.read 7) ∧
    decode (1 * 1000 + 1 * 100 + 9 * 10 + 9) = .ok (.write 99) := ⟨rfl, rfl⟩

theorem test_decode_load_store :
    decode (2 * 1000 + 0 * 100 + 0 * 10 + 7) = .ok (.load 7) ∧
    decode (2 * 1000 + 1 * 100 + 5 * 10 + 0) = .ok (.store 50) ∧
    decode (2 * 1000 + 2 * 100 + 0 * 10 + 1) = .ok (.loadi 1) := ⟨rfl, rfl, rfl⟩

theorem test_decode_memory_arithmetic :
    decode (3 * 1000 + 0 * 100 + 0 * 10 + 1) = .ok (.add 1) ∧
    decode (3 * 1000 + 1 * 100 + 1 * 10 + 0) = .ok (.subt 10) ∧
    decode (3 * 1000 + 2 * 100 + 2 * 10 + 3) = .ok (.div 23) ∧
    decode (3 * 1000 + 3 * 100 + 3 * 10 + 2) = .ok (.mod 32) ∧
    decode (3 * 1000 + 4 * 100 + 0 * 10 + 0) = .ok (.mult 0) := ⟨rfl, rfl, rfl, rfl, rfl⟩

theorem test_decode_immediate_arithmetic :
    decode (3 * 1000 + 5 * 100 + 0 * 10 + 3) = .ok (.addi 3) ∧
    decode (3 * 1000 + 6 * 100 + 9 * 10 + 9) = .ok (.subti 99) ∧
    decode (3 * 1000 + 7 * 100 + 0 * 10 + 0) = .ok (.divi 0) ∧
    decode (3 * 1000 + 8 * 100 + 0 * 10 + 7) = .ok (.modi 7) ∧
    decode (3 * 1000 + 9 * 100 + 9 * 10 + 9) = .ok (.multi 99) := ⟨rfl, rfl, rfl, rfl, rfl⟩

theorem test_decode_control :
    decode (4 * 1000 + 0 * 100 + 0 * 10 + 5) = .ok (.jump 5) ∧
    decode (4 * 1000 + 1 * 100 + 1 * 10 + 0) = .ok (.jumpn 10) ∧
    decode (4 * 1000 + 2 * 100 + 1 * 10 + 0) = .ok (.jumpz 10) ∧
    decode (4 * 1000 + 3 * 100 + 0 * 10 + 0) = .ok (.halt 0) := ⟨rfl, rfl, rfl, rfl⟩

theorem test_decode_rejects_by_name :
    decode 999 = .error (.unknownOpcode 9) ∧ decode 1200 = .error (.unknownOpcode 12) ∧
    decode 2999 = .error (.unknownOpcode 29) ∧ decode 4400 = .error (.unknownOpcode 44) ∧
    decode (-2007) = .error (.unknownOpcode (-20)) := ⟨rfl, rfl, rfl, rfl, rfl⟩

theorem test_encode_words :
    encode (.read 0) = 1000 ∧ encode (.halt 0) = 4300 ∧ encode (.multi 99) = 3999 ∧
    encode (.load 7) = 2007 ∧ encode (.jumpz 10) = 4210 := by decide

theorem test_table_word :
    decodeTableWord 16 2103 = some (.store 3) ∧ decodeTableWord 16 4400 = none := by decide

theorem test_fetch_word_runs :
    look (after (State.reset.withFetchWord 16 2207)) = (7, 1, .running) := by decide

/-! ## One step of each instruction -/

theorem test_read_I1 : after (st 0 3 [num 0 0, num 3 1000] [.inInt 3]) =
    st 0 4 [num 0 3, num 3 1000] := by decide

theorem test_read_I4_range : after (st 5 3 [num 0 42, num 3 1000] [.inInt 10000, .inInt 1]) =
    { st 5 3 [num 0 42, num 3 1000] [.inInt 1] with
      state := .faulted .inputRange, diag := [.faultReport .inputRange 3] } := by decide

theorem test_write_O1 : (after (st 8 4 [num 1 3, num 4 1101])).output = [.outNum 3] := by decide

theorem test_write_O3_raw : (after (st 8 4 [raw 1 "abc", num 4 1101])).output =
    [.outRaw "abc".toList] := by decide

theorem test_load_L2 : look (after (st 7 2 [num 0 (-9999), num 2 2000])) =
    (-9999, 3, .running) := by decide

theorem test_load_L3_raw : look (after (st 7 2 [raw 0 "abc", num 2 2000])) =
    (7, 2, .faulted .nonNumericOperand) := by decide

theorem test_store_L7 : after (st (-8) 4 [num 4 2150]) =
    st (-8) 5 [num 4 2150, num 50 (-8)] := by decide

theorem test_store_L12_absent : look (after (st50 8 4 [num 4 2160])) =
    (8, 4, .faulted .addressOutOfRange) := by decide

theorem test_loadi_L11 : look (after (st 8 4 [num 4 2299])) = (99, 5, .running) := by decide

theorem test_add_M1 : look (after (st 5 2 [num 2 3003, num 3 3])) = (8, 3, .running) := by decide

theorem test_add_M3_range : look (after (st 9999 2 [num 2 3003, num 3 1])) =
    (9999, 2, .faulted .arithRange) := by decide

theorem test_subt_M7 : look (after (st 3 2 [num 2 3103, num 3 10])) = (-7, 3, .running) := by
  decide

theorem test_subt_M9_range : look (after (st 1 2 [num 2 3103, num 3 (-9999)])) =
    (1, 2, .faulted .arithRange) := by decide

theorem test_div_M12 : look (after (st (-7) 2 [num 2 3203, num 3 2])) = (-3, 3, .running) := by
  decide

theorem test_div_M16_zero : after (st 5 2 [num 2 3203, num 3 0]) =
    { st 0 3 [num 2 3203, num 3 0] with diag := [.divByZero 2] } := by decide

theorem test_mod_M21 : look (after (st (-7) 2 [num 2 3303, num 3 2])) = (-1, 3, .running) := by
  decide

theorem test_mod_M26_zero : look (after (st 0 2 [num 2 3303, num 3 0])) =
    (0, 2, .faulted .modZero) := by decide

theorem test_mult_M30 : look (after (st (-99) 2 [num 2 3403, num 3 101])) =
    (-9999, 3, .running) := by decide

theorem test_mult_M31_range : look (after (st (-100) 2 [num 2 3403, num 3 100])) =
    (-100, 2, .faulted .arithRange) := by decide

theorem test_addi_X3 : look (after (st 9900 2 [num 2 3599])) = (9999, 3, .running) := by decide

theorem test_addi_X4_range : look (after (st 9901 2 [num 2 3599])) =
    (9901, 2, .faulted .arithRange) := by decide

theorem test_subti_X6 : look (after (st (-9900) 2 [num 2 3699])) = (-9999, 3, .running) := by
  decide

theorem test_subti_X7_range : look (after (st (-9901) 2 [num 2 3699])) =
    (-9901, 2, .faulted .arithRange) := by decide

theorem test_divi_X9 : look (after (st (-50) 2 [num 2 3707])) = (-7, 3, .running) := by decide

theorem test_divi_X10_zero : look (after (st 1234 2 [num 2 3700])) = (0, 3, .running) := by decide

theorem test_modi_X13 : look (after (st (-50) 2 [num 2 3807])) = (-1, 3, .running) := by decide

theorem test_modi_X16_zero : look (after (st 1234 2 [num 2 3800])) =
    (1234, 2, .faulted .modZero) := by decide

theorem test_multi_X21 : look (after (st (-101) 2 [num 2 3999])) = (-9999, 3, .running) := by
  decide

theorem test_multi_X20_range : look (after (st 102 2 [num 2 3999])) =
    (102, 2, .faulted .arithRange) := by decide

theorem test_jump_J2 : look (after (st 9 7 [num 7 4000])) = (9, 0, .running) := by decide

theorem test_jumpn_J5 : look (after (st (-7) 7 [num 7 4110])) = (-7, 10, .running) := by decide

theorem test_jumpn_J7_zero : look (after (st 0 7 [num 7 4110])) = (0, 8, .running) := by decide

theorem test_jumpz_J9 : look (after (st 0 3 [num 3 4210])) = (0, 10, .running) := by decide

theorem test_jumpz_J11_negative : look (after (st (-1) 3 [num 3 4210])) = (-1, 4, .running) := by
  decide

theorem test_halt_J13 : look (after (st 8 5 [num 5 4377])) = (8, 5, .halted) := by decide

/-! ## The cycle around them -/

theorem test_unknown_J17 : after (st 8 0 [num 0 1234]) =
    { st 8 1 [num 0 1234] with diag := [.unknownOpcode 12 0] } := by decide

theorem test_fetch_J20_raw : look (after (st 8 6 [raw 6 "abc"])) =
    (8, 6, .faulted .nonNumericFetch) := by decide

theorem test_exhausted_J23 : look (after (st 8 100 [])) = (8, 100, .exhausted) := by decide

theorem test_order_Q1 : look (after (st 5 2 [num 2 3303, raw 3 "x"])) =
    (5, 2, .faulted .nonNumericOperand) := by decide

theorem test_order_Q2 : look (after (st50 5 2 [num 2 1060] [.inInt 10000])) =
    (5, 2, .faulted .inputRange) := by decide

/-! ## The Assembler and the loader -/

theorem test_asm_A1 : (imageOf ["x = 5", "x = 9", "y 3", "LOAD x", "HALT"]).data = [5, 3] ∧
    (imageOf ["x = 5", "x = 9", "y 3", "LOAD x", "HALT"]).words = [2000, 4300] := by decide

theorem test_asm_A2 : (imageOf ["a:", "LOADI 1", "a:", "JUMP a", "HALT"]).words =
    [2201, 4001, 4300] := by decide

theorem test_asm_A3 : (imageOf ["x", "x:", "JUMP x", "HALT"]).words = [4001, 4300] := by decide

theorem test_asm_A8 : (imageOf ["LOAD z", "HALT"]).warnings =
    [.undefinedSymbol "z".toList] := by decide

theorem test_asm_A11 : (assemble (src ["loop: ADD x"])).phase =
    .failed (.unknownMnemonic "loop:".toList) := by decide

theorem test_asm_A13 : (assemble (src ["ADD x // note"])).phase = .failed .malformedLine := by
  decide

theorem test_asm_A16 : (imageOf ["x=5", "jmpz 007", "Halt"]).words = [4207, 4300] := by decide

theorem test_asm_A20 : (imageOf ["HALT", "x = 1", "y = 2", "LOAD y"]).words = [4300, 2001] := by
  decide

theorem test_boot_P5 : (boot (assembleLines (src ["big = 9999", "LOADI 1", "ADD big", "HALT"])
    State.reset)).toOption.map (fun s => (s.pc, s.mem)) =
      some (1, [num 0 9999, num 1 2201, num 2 3000, num 3 4300]) := by decide

theorem test_render : render (-5) = "-0005".toList ∧ parse "-0000".toList = none := by decide

/-! ## Witnesses: states and operands that meet the hypotheses of the statements -/

theorem witness_DecodeInvertsEncode :
    (Instr.multi 99).wf = true ∧ (Instr.read 0).wf = true ∧ decode 4399 = .ok (.halt 99) :=
  ⟨rfl, rfl, rfl⟩

/-- Both ends of each block of unassigned words, and a fetch of one that is Running. -/
theorem witness_UnassignedWordsTakeTheUnknownOpcodePath :
    (∀ w ∈ [-9999, -1, 0, 999, 1200, 1999, 2300, 2999, 4400, 9999],
      (decode w).toOption = none) ∧
    (∀ w ∈ [1000, 1199, 2000, 2299, 3000, 4399], (decode w).toOption ≠ none) ∧
    AtWord (st 8 0 [num 0 999]) 999 ∧ AtWord (st 8 99 [num 99 (-9999)]) (-9999) := by decide

theorem witness_HaltIgnoresItsOperandDigits :
    AtWord (st 8 5 [num 5 4300]) 4300 ∧ AtWord (st 8 5 [num 5 4399]) 4399 ∧
    (assemble (src ["HALT 5"])).phase = .image (imageOf ["HALT 5"]) ∧
    4300 ∈ (imageOf ["HALT 5"]).words := by decide

theorem witness_StepRunsTheDecodedInstruction :
    AtWord (st 0 99 [num 99 2205]) 2205 ∧ (decode 2205).toOption = some (.loadi 5) := by decide

theorem witness_TriggerIsTheStepPrimitive :
    ({ st 8 5 [] with state := .halted } : State).state ≠ .running ∧
    ((st 8 100 []).state = .running ∧ (st 8 100 []).cfg.cap ≤ (st 8 100 []).pc) ∧
    ((st 8 99 []).state = .running ∧ (st 8 99 []).pc < (st 8 99 []).cfg.cap) := by decide

theorem witness_FetchOfNoNumberFaults :
    (st 8 6 []).state = .running ∧ (st 8 6 []).pc < (st 8 6 []).cfg.cap ∧
    (st 8 6 []).cellAt 6 = none ∧ (st 8 6 [raw 6 "abc"]).cellAt 6 = some (.raw "abc".toList) := by
  decide

/-- A state for every clause of the transition table, with the step it takes. -/
theorem witness_RunStateFollowsItsTransitionTable :
    step { st 8 5 [] with state := .halted } = .next (after { st 8 5 [] with state := .halted }) ∧
    step (st 8 100 []) = .next (after (st 8 100 [])) ∧
    (after (st 8 100 [])).state = .exhausted ∧
    step (st 8 5 [num 5 4399]) = .next (after (st 8 5 [num 5 4399])) ∧
    (after (st 8 5 [num 5 4399])).state = .halted ∧
    step (st 8 6 []) = .next (after (st 8 6 [])) ∧
    (after (st 8 6 [])).state = .faulted .uninitRead :=
  ⟨rfl, rfl, rfl, rfl, rfl, rfl, rfl⟩

/-- The invariant's bounds are met at their ends. -/
theorem witness_StepKeepsTheInvariant :
    Inv (st (-9999) 3 [num 0 9999, num 3 1000] [.inTok "a".toList]) ∧
    step (st (-9999) 3 [num 0 9999, num 3 1000] [.inTok "a".toList]) =
      .next (after (st (-9999) 3 [num 0 9999, num 3 1000] [.inTok "a".toList])) :=
  ⟨by decide, rfl⟩

theorem witness_HostCallsKeepTheInvariant :
    Inv (st 9999 100 []) ∧ (InputItem.inTok "a".toList).wf = true ∧
    99 ≤ max (st50 0 0 []).cfg.cap 99 ∧ Inv (st50 0 0 []) ∧
    (boot (assembleLines (src ["x = 5", "HALT"]) State.reset)).toOption ≠ none := by decide

theorem witness_EngineNeverTouchesTablesOrParameters :
    step (st50 8 4 [num 4 2160]) = .next (after (st50 8 4 [num 4 2160])) := rfl

/-- A READ that takes an item, a WRITE that emits, a WRITE that faults, and an instruction that is
neither. -/
theorem witness_StreamsMoveOnlyByReadAndWrite :
    AtInstr (st 0 3 [num 3 1000] [.inInt 3]) (.read 0) ∧
    AtInstr (st 8 4 [num 1 3, num 4 1101]) (.write 1) ∧
    (after (st 8 4 [num 1 3, num 4 1101])).state = .running ∧
    AtInstr (st 8 4 [num 4 1101]) (.write 1) ∧
    (after (st 8 4 [num 4 1101])).state ≠ .running ∧
    AtInstr (st 8 4 [num 4 2201]) (.loadi 1) :=
  ⟨⟨1000, by decide, rfl⟩, ⟨1101, by decide, rfl⟩, by decide, ⟨1101, by decide, rfl⟩, by decide,
    ⟨2201, by decide, rfl⟩⟩

theorem witness_OnlyReadAndStoreWriteMemory :
    step (st 8 4 [num 1 3, num 4 2101]) = .next (after (st 8 4 [num 1 3, num 4 2101])) ∧
    (after (st 8 4 [num 1 3, num 4 2101])).cellAt 1 ≠ (st 8 4 [num 1 3, num 4 2101]).cellAt 1 :=
  ⟨rfl, by decide⟩

theorem witness_OnlyLoadsAndArithmeticWriteTheAccumulator :
    step (st 5 2 [num 2 3599]) = .next (after (st 5 2 [num 2 3599])) ∧
    (after (st 5 2 [num 2 3599])).acc ≠ (st 5 2 [num 2 3599]).acc := ⟨rfl, by decide⟩

/-- A step that ends the run, one that advances, one that jumps, one that is held. -/
theorem witness_ProgramCounterAdvancesJumpsOrStays :
    (after (st 8 5 [num 5 4300])).state ≠ .running ∧
    look (after (st 8 99 [num 99 2205])) = (5, 100, .running) ∧
    look (after (st 9 7 [num 7 4000])) = (9, 0, .running) ∧
    after (st 0 3 [num 3 1000]) = st 0 3 [num 3 1000] ∧
    step (st 8 5 [num 5 4300]) = .next (after (st 8 5 [num 5 4300])) :=
  ⟨by decide, by decide, by decide, by decide, rfl⟩

theorem witness_FaultsArePrecise :
    (st 5 3 [num 3 1000] [.inInt 10000]).state = .running ∧
    step (st 5 3 [num 3 1000] [.inInt 10000]) =
      .next (after (st 5 3 [num 3 1000] [.inInt 10000])) ∧
    (after (st 5 3 [num 3 1000] [.inInt 10000])).state = .faulted .inputRange :=
  ⟨rfl, rfl, by decide⟩

/-- A state for each of the seven causes. -/
theorem witness_FaultCausesAreExactlyTheTable :
    (after (st 9999 2 [num 2 3003, num 3 1])).state = .faulted .arithRange ∧
    (after (st 5 3 [num 3 1000] [.inInt (-10000)])).state = .faulted .inputRange ∧
    (after (st 0 2 [num 2 3800])).state = .faulted .modZero ∧
    (after (st 7 2 [raw 0 "abc", num 2 2000])).state = .faulted .nonNumericOperand ∧
    (after (st 8 6 [raw 6 "abc"])).state = .faulted .nonNumericFetch ∧
    (after (st 8 6 [])).state = .faulted .uninitRead ∧
    (after (st50 8 4 [num 4 2160])).state = .faulted .addressOutOfRange ∧
    FaultsWith (st 8 6 []) .uninitRead :=
  ⟨by decide, by decide, by decide, by decide, by decide, by decide, by decide, .fetchUninit rfl⟩

/-- The items at both ends of the range and just outside it; the last address and the first absent
one. -/
theorem witness_ReadStoresTheNextInputItem :
    (st 5 3 [] [.inInt 9999]).input = .inInt 9999 :: [] ∧
    (st 5 3 [] [.inInt (-9999)]).input = .inInt (-9999) :: [] ∧
    99 < (st 5 3 [] [.inInt 9999]).cfg.cap ∧
    (st 5 3 [] [.inTok "abc".toList]).input = .inTok "abc".toList :: [] ∧
    (st 5 3 [] [.inInt 10000]).input = .inInt 10000 :: [] ∧ (9999 : Int) < 10000 ∧
    (st 5 3 [] [.inInt (-10000)]).input = .inInt (-10000) :: [] ∧ (-10000 : Int) < -9999 ∧
    (st50 5 2 [] [.inInt 1]).input = .inInt 1 :: [] ∧ (st50 5 2 [] [.inInt 1]).cfg.cap ≤ 50 := by
  decide

theorem witness_ReadWaitsForInput :
    Held (st 5 3 [num 3 1000]) ∧ AtInstr (st 5 3 [num 3 1000] [.inInt 3]) (.read 0) :=
  ⟨⟨0, ⟨1000, by decide, rfl⟩, rfl⟩, ⟨1000, by decide, rfl⟩⟩

/-- The clauses `FaultsOnAbsentCell` and `FaultsOnNoNumber` that the statements about WRITE, LOAD, ADD,
SUBT, DIV, MOD and MULT share: a number in the last cell, a token, a cell that holds nothing, and the
first absent address of two memories. -/
theorem witness_OperandCells :
    (99 < (st 8 4 [num 99 (-12)]).cfg.cap ∧
      (st 8 4 [num 99 (-12)]).cellAt 99 = some (.numeric (-12))) ∧
    (0 < (st 8 4 [raw 0 "abc"]).cfg.cap ∧
      (st 8 4 [raw 0 "abc"]).cellAt 0 = some (.raw "abc".toList)) ∧
    (50 < (st 8 4 []).cfg.cap ∧ (st 8 4 []).cellAt 50 = none) ∧
    ((st 8 4 []).cfg.cap ≤ 100 ∧ (st50 8 4 []).cfg.cap ≤ 50) := by decide

theorem witness_WriteEmitsTheCell :
    (st 8 4 [num 1 3]).cellAt 1 = some (.numeric 3) ∧
    (st 8 4 [raw 1 "abc"]).cellAt 1 = some (.raw "abc".toList) ∧ 1 < (st 8 4 []).cfg.cap := by
  decide

theorem witness_LoadCopiesTheCell :
    (st 0 2 [num 0 5]).cellAt 0 = some (.numeric 5) ∧ 0 < (st 0 2 [num 0 5]).cfg.cap := by decide

theorem witness_StoreWritesTheAccumulator :
    99 < (st 8 4 []).cfg.cap ∧ (st50 8 4 []).cfg.cap ≤ 50 := by decide

theorem witness_AddAddsTheCell :
    (st 9999 2 [num 3 0]).cellAt 3 = some (.numeric 0) ∧
    (st 9999 2 [num 3 1]).cellAt 3 = some (.numeric 1) ∧ 3 < (st 9999 2 []).cfg.cap ∧
    (st 9999 2 []).acc + 0 ≤ 9999 ∧ 9999 < (st 9999 2 []).acc + 1 ∧
    (st (-9999) 2 []).acc + -1 < -9999 := by decide

theorem witness_SubtSubtractsTheCell :
    (st (-9999) 2 [num 3 0]).cellAt 3 = some (.numeric 0) ∧
    (st (-9999) 2 [num 3 1]).cellAt 3 = some (.numeric 1) ∧ 3 < (st (-9999) 2 []).cfg.cap ∧
    -9999 ≤ (st (-9999) 2 []).acc - 0 ∧ (st (-9999) 2 []).acc - 1 < -9999 ∧
    9999 < (st 1 2 []).acc - -9999 := by decide

/-- The last clause needs an accumulator that no run reaches: a quotient of lawful numbers is always
in range (R122). -/
theorem witness_DivDividesByTheCell :
    (st 5 2 [num 3 0]).cellAt 3 = some (.numeric 0) ∧
    (st (-9999) 2 [num 3 (-1)]).cellAt 3 = some (.numeric (-1)) ∧ 3 < (st 5 2 []).cfg.cap ∧
    (-9999 : Int).tdiv (-1) ≤ 9999 ∧ 9999 < (st 10000 2 []).acc.tdiv 1 ∧
    (st 10000 2 []).acc.tdiv (-1) < -9999 := by decide

theorem witness_ModTakesTheRemainderByTheCell :
    (st 5 2 [num 3 0]).cellAt 3 = some (.numeric 0) ∧
    (st (-7) 2 [num 3 2]).cellAt 3 = some (.numeric 2) ∧ 3 < (st 5 2 []).cfg.cap := by decide

theorem witness_MultMultipliesByTheCell :
    (st 99 2 [num 3 101]).cellAt 3 = some (.numeric 101) ∧
    (st 100 2 [num 3 100]).cellAt 3 = some (.numeric 100) ∧ 3 < (st 99 2 []).cfg.cap ∧
    (st 99 2 []).acc * 101 ≤ 9999 ∧ 9999 < (st 100 2 []).acc * 100 ∧
    (st (-100) 2 []).acc * 100 < -9999 := by decide

theorem witness_AddiAddsTheLiteral :
    -9999 ≤ (st (-9999) 2 []).acc ∧ (st 9900 2 []).acc + 99 ≤ 9999 ∧
    9999 < (st 9901 2 []).acc + 99 := by decide

theorem witness_SubtiSubtractsTheLiteral :
    (st 9999 2 []).acc ≤ 9999 ∧ -9999 ≤ (st (-9900) 2 []).acc - 99 ∧
    (st (-9901) 2 []).acc - 99 < -9999 := by decide

theorem witness_DiviDividesByTheLiteral :
    -9999 ≤ (st (-9999) 2 []).acc ∧ (st 9999 2 []).acc ≤ 9999 ∧ (1 : Nat) ≠ 0 := by decide

theorem witness_ModiTakesTheRemainderByTheLiteral : (0 : Nat) = 0 ∧ (1 : Nat) ≠ 0 := by decide

theorem witness_MultiMultipliesByTheLiteral :
    (st 101 2 []).acc * (99 : Nat) ≤ 9999 ∧ 9999 < (st 102 2 []).acc * (99 : Nat) ∧
    -9999 ≤ (st (-101) 2 []).acc * (99 : Nat) ∧ (st (-102) 2 []).acc * (99 : Nat) < -9999 := by
  decide

theorem witness_DivisionTruncatesTowardZero :
    (-1 : Int) ≠ 0 ∧ tdiv (-7) 2 = -3 ∧ tmod (-7) 2 = -1 ∧ (0 : Int) ≤ 7 ∧ (0 : Int) < 2 := by
  decide

/-- An instruction of each of the four opcodes under the invariant. -/
theorem witness_QuotientsAndRemaindersNeverLeaveTheRange :
    inRange (-9999) = true ∧ inRange 9999 = true ∧
    Inv (st (-9999) 2 [num 2 3203, num 3 (-1)]) ∧
    AtInstr (st (-9999) 2 [num 2 3203, num 3 (-1)]) (.div 3) ∧ (Instr.div 3).opcode = 32 ∧
    AtInstr (st (-9999) 2 [num 2 3303, num 3 (-1)]) (.mod 3) ∧ (Instr.mod 3).opcode = 33 ∧
    AtInstr (st (-9999) 2 [num 2 3701]) (.divi 1) ∧ (Instr.divi 1).opcode = 37 ∧
    AtInstr (st (-9999) 2 [num 2 3800]) (.modi 0) ∧ (Instr.modi 0).opcode = 38 :=
  ⟨by decide, by decide, by decide, ⟨3203, by decide, rfl⟩, rfl, ⟨3303, by decide, rfl⟩, rfl,
    ⟨3701, by decide, rfl⟩, rfl, ⟨3800, by decide, rfl⟩, rfl⟩

theorem witness_JumpnTestsForNegative : (st (-1) 7 []).acc < 0 ∧ 0 ≤ (st 0 7 []).acc := by decide

theorem witness_JumpzTestsForZero :
    (st 0 7 []).acc = 0 ∧ (st (-1) 7 []).acc ≠ 0 ∧ (st 1 7 []).acc ≠ 0 := by decide

theorem witness_HaltStopsTheEngine :
    ({ st 8 5 [] with state := .halted } : State).state = .halted := rfl

theorem witness_CellReadsSeeTheLatestWrite :
    99 < (st 0 0 []).cfg.cap ∧ (st 0 0 []).cfg.cap ≤ 100 := by decide

theorem witness_CanonicalMemoriesAreExtensional :
    Memory.wf Config.recommended [num 0 5, num 99 (-9999)] := by decide

/-- L9 of the vectors, and a READ into the next cell of a number and of a token. -/
theorem witness_FetchSeesTheStoreBeforeIt :
    (st 4300 4 [num 4 2105]).pc + 1 < (st 4300 4 [num 4 2105]).cfg.cap ∧
    AtInstr (st 4300 4 [num 4 2105]) (.store 5) ∧ decode 4300 = .ok (.halt 0) ∧
    step (st 4300 4 [num 4 2105]) = .next (after (st 4300 4 [num 4 2105])) ∧
    AtInstr (st 0 98 [num 98 1099] [.inInt 4300]) (.read 99) ∧
    step (st 0 98 [num 98 1099] [.inInt 4300]) =
      .next (after (st 0 98 [num 98 1099] [.inInt 4300])) ∧
    AtInstr (st 0 98 [num 98 1099] [.inTok "a".toList]) (.read 99) ∧
    step (st 0 98 [num 98 1099] [.inTok "a".toList]) =
      .next (after (st 0 98 [num 98 1099] [.inTok "a".toList])) :=
  ⟨by decide, ⟨2105, by decide, rfl⟩, rfl, rfl, ⟨1099, by decide, rfl⟩, rfl,
    ⟨1099, by decide, rfl⟩, rfl⟩

theorem witness_ResetIsTheOnlyWayOutOfATerminalState :
    ({ st 8 5 [] with state := .exhausted } : State).state ≠ .running ∧
    step { st 8 5 [] with state := .exhausted } =
      .next (after { st 8 5 [] with state := .exhausted }) := ⟨by decide, rfl⟩

/-- An image that fills memory to its last cell, and one that is one cell too long. -/
theorem witness_LoaderLaysOutTheImage :
    ([5] : List Int).length = 1 ∧ 1 + (List.replicate 99 (4300 : Int)).length ≤ State.reset.cfg.cap ∧
    State.reset.cfg.cap < 1 + (List.replicate 100 (4300 : Int)).length := by decide

/-- An assembled program that fits, with an instruction, no warning, and empty histories. -/
theorem witness_AssembledProgramStartsAtItsFirstInstruction :
    (assemble (src ["x = 5", "LOAD x", "HALT"])).phase =
      .image (imageOf ["x = 5", "LOAD x", "HALT"]) ∧
    (imageOf ["x = 5", "LOAD x", "HALT"]).words = 2000 :: [4300] ∧
    (imageOf ["x = 5", "LOAD x", "HALT"]).warnings = [] ∧
    1 + [(2000 : Int), 4300].length ≤ State.reset.cfg.cap ∧
    State.reset.output = [] ∧ State.reset.diag = [] := by decide

theorem witness_AssemblyEndsInAnImageOrAFailure :
    (assembleLines (src ["LAOD x"]) State.reset).asm.phase =
      .failed (.unknownMnemonic "LAOD".toList) := by decide

/-- Two variables, a re-declaration, a label defined twice and a HALT. -/
def sample : List Text := src ["x = 5", "y", "x 9", "a:", "LOAD y", "a:", "HALT"]

/-- The image of `sample`, written out by hand from R71, R73 and R80. -/
def sampleImage : Image :=
  { origin := 2, data := [5, 0], words := [2001, 4300],
    vars := [⟨"x".toList, 0, 5⟩, ⟨"y".toList, 1, 0⟩], labels := [("a".toList, 3)],
    warnings := [] }

theorem witness_VariablesGetAddressesInFirstDeclarationOrder :
    (assemble sample).phase = .image sampleImage ∧
    sampleImage.vars[0]? = some ⟨"x".toList, 0, 5⟩ ∧
    sampleImage.vars[1]? = some ⟨"y".toList, 1, 0⟩ := by decide

theorem witness_LabelsBindToTheNextInstruction :
    (assemble sample).phase = .image sampleImage ∧
    sampleImage.labels.lookup "a".toList = some 3 ∧ sampleImage.labels.lookup "b".toList = none := by
  decide

/-- Two line lists with the same declarations and the same code, in different places. -/
theorem witness_EveryImageIsWellFormed :
    ((src ["x = 5", "HALT"]).map classify).filter isVarLine =
      ((src ["HALT", "// c", "x = 5"]).map classify).filter isVarLine ∧
    ((src ["x = 5", "HALT"]).map classify).filter isCodeLine =
      ((src ["HALT", "// c", "x = 5"]).map classify).filter isCodeLine := by decide

/-- Tables with a label and a variable, for every way an operand resolves, and the bounds of its
size. -/
def tables : AsmState :=
  { AsmState.start with labels := [("a".toList, 100)], vars := [⟨"x".toList, 0, 5⟩] }

theorem witness_InstructionLinesResolveAndEncodeInOrder :
    opcodeOf "LAOD".toList = none ∧ opcodeOf "halt".toList = some 43 ∧
    opcodeOf "add".toList = some 30 ∧ 1 < [["x"], ["y"]].length ∧
    resolve tables "99".toList = some 99 ∧ resolve tables "100".toList = some 100 ∧
    resolve tables "-5".toList = none ∧ LiteralText "007".toList ∧ ¬ LiteralText "a".toList ∧
    tables.labels.lookup "a".toList = some 100 ∧ ¬ LiteralText "x".toList ∧
    tables.labels.lookup "x".toList = none ∧ (⟨"x".toList, 0, 5⟩ : VarEntry) ∈ tables.vars ∧
    (tables.vars.map VarEntry.name).Nodup ∧ ¬ LiteralText "-5".toList ∧
    tables.labels.lookup "-5".toList = none ∧ (∀ v ∈ tables.vars, v.name ≠ "-5".toList) := by decide

/-- The lines of `sample` give the words of `sampleImage`; HALT with an operand, an undefined symbol, a
literal, a label and a variable give their words and warnings. -/
theorem witness_ImageWordsAreTheEncodedInstructionLines :
    (assemble sample).phase = .image sampleImage ∧
    ((sample.map classify).filter isInstrLine)[0]? = some (.instr "LOAD".toList ["y".toList]) ∧
    ((sample.map classify).filter isInstrLine)[1]? = some (.instr "HALT".toList []) ∧
    (imageOf ["x 1", "a:", "ADD 99", "JUMP a", "LOAD x", "ADD z", "HALT z"]).words =
      [3099, 4001, 2000, 3000, 4300] ∧
    (imageOf ["x 1", "a:", "ADD 99", "JUMP a", "LOAD x", "ADD z", "HALT z"]).warnings =
      [.undefinedSymbol "z".toList] := by decide

/-- A program for each reason of R161, the first met being the one reported: a value before a label
before an instruction, whatever their places. -/
theorem witness_AssemblyFailsWithTheFirstProblemMet :
    (assemble (src ["FOO x", "9x:", "x 10000"])).phase =
      .failed (.initValueRange "x".toList 10000) ∧
    (assemble (src ["FOO x", "9x:"])).phase = .failed .malformedLine ∧
    (assemble (src ["ADD", "FOO x"])).phase = .failed .missingOperand ∧
    (assemble (src ["ADDI 100", "FOO x"])).phase =
      .failed (.operandOverflow "100".toList 100) ∧
    (assemble (src ["x 1", "x 10000", "HALT"])).phase = .image (imageOf ["x 1", "HALT"]) := by decide

theorem witness_MnemonicsAreCaseInsensitiveAndReserved :
    "Load".toList.map Char.toUpper = "lOAD".toList.map Char.toUpper ∧
    ("JMPZ", 42) ∈ mnemonicTable ∧
    classify "FOO 5".toList = .varDecl "FOO".toList 5 := by decide

theorem witness_SurroundingBlanksDoNotChangeTheClass :
    (∀ c ∈ [' ', '\t'], c = ' ' ∨ c = '\t') ∧
    classify ([' ', '\t'] ++ "a:".toList ++ [' ']) = .labelDef "a".toList :=
  ⟨by simp, by decide⟩

/-- A line of every class, and the three surface forms of a declaration, with and without blanks. -/
theorem witness_LinesGetTheClassOfTheGrammar :
    AllBlank [' ', '\t'] ∧ IdentifierText "x".toList ∧ opcodeOf "x".toList = none ∧
    IntegerText "-05".toList (-5) ∧ opcodeOf "add".toList ≠ none ∧ IdentifierText "add".toList ∧
    classify [' ', '\t'] = .blank ∧ classify " // x = 5".toList = .comment ∧
    classify "x :".toList = .labelDef "x".toList ∧ classify "x".toList = .varDecl "x".toList 0 ∧
    classify "x -05".toList = .varDecl "x".toList (-5) ∧
    classify "x=5".toList = .varDecl "x".toList 5 ∧
    classify "x = 5".toList = .varDecl "x".toList 5 ∧
    classify "add x".toList = .instr "add".toList ["x".toList] :=
  ⟨fun c hc => by simpa using hc, ⟨'x', [], rfl, .inl rfl, by simp⟩, by decide,
    ⟨"05".toList, by decide, .inr (.inr ⟨rfl, rfl⟩)⟩, by decide,
    ⟨'a', "dd".toList, rfl, .inl rfl, by simp [Char.isAlpha, Char.isUpper, Char.isLower]⟩,
    by decide, by decide, by decide, by decide, by decide, by decide, by decide, by decide⟩

theorem witness_TextFormRoundTrips :
    inRange (-9999) = true ∧ inRange 9999 = true ∧ parse (render (-5)) = some (-5) := by decide

end Sys2Proof.Tests
end

/-! The text form of a word (R6): the digit characters, four digits read back, and what `render` and
`parse` do. -/

namespace Sys2Proof.Machine

/-! ## Digit characters -/

theorem toNat_digitChar (d : Nat) (h : d ≤ 9) : (digitChar d).toNat = 48 + d := by
  rw [digitChar, Char.toNat_ofNat, if_pos (.inl (by omega))]

theorem isDigit_digitChar (d : Nat) (h : d ≤ 9) : (digitChar d).isDigit = true := by
  rw [Char.isDigit_iff_toNat, toNat_digitChar d h]
  exact ⟨Nat.le_add_right 48 d, Nat.add_le_add_left h 48⟩

/-- The characters with a digit's value are the ten digit characters, one for each value. -/
theorem digitOf_eq_some_iff (c : Char) (d : Nat) : digitOf c = some d ↔ d ≤ 9 ∧ c = digitChar d := by
  constructor
  · intro h
    obtain ⟨hc, hd⟩ := Option.ite_none_right_eq_some.1 h
    obtain ⟨hlo, hhi⟩ := Char.isDigit_iff_toNat.1 hc
    change 48 ≤ c.toNat at hlo
    change c.toNat ≤ 57 at hhi
    have hd : c.toNat - 48 = d := Option.some.inj hd
    refine ⟨by omega, ?_⟩
    rw [digitChar, show 48 + d = c.toNat by omega, Char.ofNat_toNat]
  · rintro ⟨h, rfl⟩
    rw [digitOf, if_pos (isDigit_digitChar d h), toNat_digitChar d h, Nat.add_sub_cancel_left]

/-! ## Four digits -/

theorem literalText_fourDigits (n : Nat) (h : n ≤ 9999) : LiteralText (fourDigits n) := by
  refine ⟨List.cons_ne_nil _ _, List.all_eq_true.2 fun c hc => ?_⟩
  simp only [fourDigits, List.mem_cons, List.not_mem_nil, or_false] at hc
  obtain rfl | rfl | rfl | rfl := hc <;> exact isDigit_digitChar _ (by omega)

theorem decimalValue_fourDigits (n : Nat) (h : n ≤ 9999) : decimalValue (fourDigits n) = n := by
  rw [← digitsValue_eq]
  simp only [digitsValue, fourDigits, List.foldl_cons, List.foldl_nil]
  rw [toNat_digitChar _ (by omega), toNat_digitChar _ (by omega), toNat_digitChar _ (by omega),
    toNat_digitChar _ (by omega)]
  omega

/-- The four characters `parseDigits` reads a number from are exactly that number's four digits. -/
theorem parseDigits_eq_some_iff (a b c d : Char) (n : Nat) :
    parseDigits a b c d = some n ↔ n ≤ 9999 ∧ [a, b, c, d] = fourDigits n := by
  constructor
  · intro h
    unfold parseDigits at h
    split at h
    case h_1 p q r s hp hq hr hs =>
      obtain ⟨hp, rfl⟩ := (digitOf_eq_some_iff _ _).1 hp
      obtain ⟨hq, rfl⟩ := (digitOf_eq_some_iff _ _).1 hq
      obtain ⟨hr, rfl⟩ := (digitOf_eq_some_iff _ _).1 hr
      obtain ⟨hs, rfl⟩ := (digitOf_eq_some_iff _ _).1 hs
      have hn : p * 1000 + q * 100 + r * 10 + s = n := Option.some.inj h
      refine ⟨by omega, ?_⟩
      rw [fourDigits, show n / 1000 = p by omega, show n / 100 % 10 = q by omega,
        show n / 10 % 10 = r by omega, show n % 10 = s by omega]
    case h_2 => cases h
  · rintro ⟨hn, h⟩
    have hdigit : ∀ e ≤ 9, digitOf (digitChar e) = some e := fun e he =>
      (digitOf_eq_some_iff _ _).2 ⟨he, rfl⟩
    obtain ⟨rfl, rfl, rfl, rfl⟩ : a = _ ∧ b = _ ∧ c = _ ∧ d = _ := by simpa [fourDigits] using h
    rw [parseDigits, hdigit _ (by omega), hdigit _ (by omega), hdigit _ (by omega),
      hdigit _ (by omega)]
    exact congrArg some (by omega)

/-! ## `render` and `parse` -/

/-- R6: what `render` writes for a word in range, digits and sign apart. -/
theorem render_digits (w : Int) (h : inRange w = true) :
    ∃ ds : Text, LiteralText ds ∧ ds.length = 4 ∧ decimalValue ds = w.natAbs ∧
      render w = if w < 0 then '-' :: ds else ds := by
  have hn : w.natAbs ≤ 9999 := by have := (inRange_iff w).1 h; omega
  exact ⟨fourDigits w.natAbs, literalText_fourDigits _ hn, rfl, decimalValue_fourDigits _ hn, rfl⟩

theorem render_natCast (n : Nat) : render (n : Int) = fourDigits n := by
  rw [render, if_neg (by omega), Int.natAbs_natCast]

theorem render_neg_natCast (n : Nat) (h : n ≠ 0) : render (-(n : Int)) = '-' :: fourDigits n := by
  rw [render, if_pos (by omega), Int.natAbs_neg, Int.natAbs_natCast]

theorem parse_fourDigits (n : Nat) (h : n ≤ 9999) : parse (fourDigits n) = some (n : Int) := by
  have hp := (parseDigits_eq_some_iff _ _ _ _ n).2 ⟨h, rfl⟩
  rw [fourDigits, parse, hp]
  rfl

theorem parse_neg_fourDigits (n : Nat) (h : n ≤ 9999) (h0 : n ≠ 0) :
    parse ('-' :: fourDigits n) = some (-(n : Int)) := by
  have hp := (parseDigits_eq_some_iff _ _ _ _ n).2 ⟨h, rfl⟩
  simp only [fourDigits, parse]
  rw [hp]
  exact if_neg h0

theorem parse_render (w : Int) (h : inRange w = true) : parse (render w) = some w := by
  have hw := (inRange_iff w).1 h
  obtain ⟨n, rfl | rfl⟩ := w.eq_nat_or_neg
  · rw [render_natCast, parse_fourDigits n (by omega)]
  · by_cases h0 : n = 0
    · subst h0
      rfl
    · rw [render_neg_natCast n h0, parse_neg_fourDigits n (by omega) h0]

/-- Nothing parses but the texts of the words in range, each as its own word. -/
theorem render_of_parse (t : Text) (w : Int) (h : parse t = some w) :
    inRange w = true ∧ render w = t := by
  unfold parse at h
  split at h
  case h_1 a b c d =>
    obtain ⟨n, hn, rfl⟩ := Option.map_eq_some_iff.1 h
    obtain ⟨hle, htext⟩ := (parseDigits_eq_some_iff _ _ _ _ _).1 hn
    exact ⟨(inRange_iff _).2 (by omega), by rw [render_natCast, htext]⟩
  case h_2 a b c d =>
    split at h
    case h_1 n hn =>
      obtain ⟨h0, hw⟩ := Option.ite_none_left_eq_some.1 h
      obtain rfl := Option.some.inj hw
      obtain ⟨hle, htext⟩ := (parseDigits_eq_some_iff _ _ _ _ _).1 hn
      exact ⟨(inRange_iff _).2 (by omega), by rw [render_neg_natCast n h0, htext]⟩
    case h_2 => cases h
  case h_3 => cases h

/-- Settles O56: `parse` inverts `render` on every word and accepts nothing else (R6). -/
theorem textFormRoundTrips : Obligations.TextFormRoundTrips :=
  ⟨fun w h => ⟨parse_render w h, render_digits w h⟩, render_of_parse, by decide⟩

end Sys2Proof.Machine

/-! The state and its invariant (R10 to R16, R21): canonical memories, what a step does to the
accumulator and the program counter, and what it keeps. -/

namespace Sys2Proof.Machine

/-! ## Canonical memories -/

/-- A canonical memory lists exactly the cells that read as something other than the fill. -/
theorem Memory.mem_iff_read (cfg : Config) (m : Memory) (e : Nat × Cell) (h : Memory.wf cfg m) :
    e ∈ m ↔ m.read cfg.fill e.1 = some e.2 ∧ some e.2 ≠ cfg.fill := by
  obtain ⟨hsorted, hcells⟩ := h
  constructor
  · intro he
    exact ⟨Memory.read_of_mem cfg.fill m e hsorted he, (hcells e he).2.1⟩
  · rintro ⟨hread, hfill⟩
    have hlisted : e.1 ∈ m.map Prod.fst := by
      by_contra hun
      exact hfill (hread ▸ Memory.read_of_unlisted cfg.fill m e.1 hun)
    obtain ⟨d, hd, hde⟩ := List.mem_map.1 hlisted
    have hval : some d.2 = some e.2 := by
      rw [← Memory.read_of_mem cfg.fill m d hsorted hd, hde, hread]
    rwa [← Prod.ext hde (Option.some.inj hval)]

/-- Settles O43: both lists are sorted by address and list the same cells. -/
theorem canonicalMemoriesAreExtensional : Obligations.CanonicalMemoriesAreExtensional := by
  intro cfg m n hm hn hread
  have hirrefl : Std.Irrefl fun d e : Nat × Cell => d.1 < e.1 := ⟨fun e => Nat.lt_irrefl e.1⟩
  have hantisymm : Std.Antisymm fun d e : Nat × Cell => d.1 < e.1 :=
    ⟨fun _ _ h h' => absurd h (Nat.lt_asymm h')⟩
  refine (List.pairwise_map.1 hm.1).eq_of_mem_iff (List.pairwise_map.1 hn.1) fun e => ?_
  rw [Memory.mem_iff_read cfg m e hm, Memory.mem_iff_read cfg n e hn, hread]

/-! ## The state after reset -/

/-- Settles O11. -/
theorem resetMeetsTheInvariant : Obligations.ResetMeetsTheInvariant :=
  ⟨by decide, by decide, Nat.zero_le _, reset_memory_wf, List.forall_mem_nil _,
    List.forall_mem_nil _⟩

/-- Settles O46: an empty memory reads as the fill, and every other value is a field of the reset
state. -/
theorem powerOnStateIsTheResetTable : Obligations.PowerOnStateIsTheResetTable :=
  ⟨rfl, rfl, rfl, Memory.read_nil _, rfl, rfl, rfl, rfl, rfl, rfl, rfl⟩

/-! ## The invariant -/

/-- Fault entry touches nothing the invariant speaks of (R167). -/
theorem raiseFault_inv (c : FaultCause) (s : State) : Inv (raiseFault c s) ↔ Inv s := Iff.rfl

/-- Taking the first input item leaves lawful items. -/
theorem withInput_inv (s : State) (item : InputItem) (rest : List InputItem)
    (hs : s.input = item :: rest) (h : Inv s) : Inv (s.withInput rest) := by
  obtain ⟨hcfg, hacc, hpc, hmem, hin, hout⟩ := h
  exact ⟨hcfg, hacc, hpc, hmem, fun i hi => hin i (hs ▸ List.mem_cons_of_mem item hi), hout⟩

/-- Below `CAP` the next address is in the domain of `pc`, which holds `CAP` itself (R11). -/
theorem advance_inv (s : State) (h : Inv s) (hp : s.pc < s.cfg.cap) : Inv s.advance := by
  obtain ⟨hcfg, hacc, -, hmem, hin, hout⟩ := h
  exact ⟨hcfg, hacc, le_max_of_le_left hp, hmem, hin, hout⟩

/-- A two-digit jump target is in the domain of `pc`, whatever `CAP` is (R11, R148). -/
theorem jumpTo_inv (s : State) (k : Nat) (hk : k ≤ 99) (h : Inv s) : Inv (s.jumpTo k) := by
  obtain ⟨hcfg, hacc, -, hmem, hin, hout⟩ := h
  exact ⟨hcfg, hacc, le_max_of_le_right hk, hmem, hin, hout⟩

theorem setAcc_inv (s : State) (v : Int) (hv : inRange v = true) (h : Inv s) :
    Inv (s.setAcc v) := by
  obtain ⟨hcfg, -, hpc, hmem, hin, hout⟩ := h
  exact ⟨hcfg, hv, hpc, hmem, hin, hout⟩

theorem emit_inv (s : State) (o : OutputItem) (ho : o.wf = true) (h : Inv s) :
    Inv (s.emit o) := by
  obtain ⟨hcfg, hacc, hpc, hmem, hin, hout⟩ := h
  refine ⟨hcfg, hacc, hpc, hmem, hin, fun p hp => ?_⟩
  rcases List.mem_append.1 hp with hp | hp
  · exact hout p hp
  · rwa [List.mem_singleton.1 hp]

/-- A lawful cell written below `CAP` keeps the invariant (R15). -/
theorem memWrite_inv (s : State) (k : Nat) (c : Cell) (hk : k < s.cfg.cap) (hc : c.wf = true)
    (h : Inv s) : Inv { s with mem := s.mem.write s.cfg.fill k c } := by
  obtain ⟨hcfg, hacc, hpc, hmem, hin, hout⟩ := h
  exact ⟨hcfg, hacc, hpc, Memory.write_wf s.cfg s.mem k c hmem hk hc, hin, hout⟩

/-- The operand of a well-formed jump is its target. -/
theorem JumpsTo.target_le (s : State) (k : Nat) (i : Instr) (hj : JumpsTo s k i)
    (hw : i.wf = true) : k ≤ 99 := by
  rcases hj with rfl | ⟨rfl, -⟩ | ⟨rfl, -⟩ <;> exact (Instr.wf_iff _).1 hw

/-- Every outcome of a well-formed instruction fetched below `CAP` keeps the invariant. -/
theorem Outcomes.keeps_inv (i : Instr) (s t : State) (ho : Outcomes i s t) (hw : i.wf = true)
    (hp : s.pc < s.cfg.cap) (h : Inv s) : Inv t := by
  cases ho with
  | hold => exact h
  | fault c => exact (raiseFault_inv c s).2 h
  | readFault k item rest c _ hs => exact (raiseFault_inv c _).2 (withInput_inv s item rest hs h)
  | read k item rest c _ hs hk hc =>
    have htaken : Inv (s.withInput rest) := withInput_inv s item rest hs h
    exact advance_inv _ (memWrite_inv (s.withInput rest) k c hk (hc h) htaken) hp
  | write k o _ hout => exact advance_inv _ (emit_inv s o (hout h) h) hp
  | store k _ hk =>
    have hacc : (Cell.numeric s.acc).wf = true := h.2.1
    exact advance_inv _ (memWrite_inv s k _ hk hacc h) hp
  | acc v _ hv => exact advance_inv _ (setAcc_inv s v (hv h hw) h) hp
  | divZero => exact advance_inv _ (setAcc_inv s 0 (by decide) h) hp
  | jump k hj => exact jumpTo_inv s k (hj.target_le s k i hw) h
  | untaken => exact advance_inv s h hp
  | halt => exact h

/-- Settles O10, over everything a step can do. -/
theorem stepKeepsTheInvariant : Obligations.StepKeepsTheInvariant := by
  intro s t hinv hstep
  rcases step_outcomes s t hstep with ⟨-, rfl⟩ | ⟨-, -, rfl⟩ | ⟨c, -, -, -, rfl⟩ |
    ⟨w, hat, -, rfl⟩ | ⟨i, hat, hw, ho⟩
  · exact hinv
  · exact hinv
  · exact (raiseFault_inv c s).2 hinv
  · exact advance_inv s hinv hat.2.1
  · exact ho.keeps_inv i s t hw (running_of_atInstr s i hat).2 hinv

/-! ## The accumulator and the program counter -/

theorem Outcomes.acc_eq_or_writesAcc (i : Instr) (s t : State) (ho : Outcomes i s t) :
    t.acc = s.acc ∨ WritesAcc i := by
  cases ho with
  | acc v hi => exact .inr hi
  | divZero hi => exact .inr hi
  | _ => exact .inl rfl

/-- Settles O16: away from an instruction no step writes the accumulator. -/
theorem onlyLoadsAndArithmeticWriteTheAccumulator :
    Obligations.OnlyLoadsAndArithmeticWriteTheAccumulator := by
  intro s t hstep hacc
  rcases step_outcomes s t hstep with ⟨-, rfl⟩ | ⟨-, -, rfl⟩ | ⟨c, -, -, -, rfl⟩ |
    ⟨w, -, -, rfl⟩ | ⟨i, hat, -, ho⟩
  · exact absurd rfl hacc
  · exact absurd rfl hacc
  · exact absurd rfl hacc
  · exact absurd rfl hacc
  · exact ⟨i, hat, (ho.acc_eq_or_writesAcc i s t).resolve_left hacc⟩

/-- Where an instruction leaves the program counter of a Running engine (R11). -/
theorem Outcomes.pc_cases (i : Instr) (s t : State) (ho : Outcomes i s t)
    (hs : s.state = .running) :
    (t.state ≠ .running ∧ t.pc = s.pc) ∨
    (t.state = .running ∧
      (t.pc = s.pc + 1 ∨ JumpsTo s t.pc i ∨ (∃ k, i = .read k) ∧ s.input = [] ∧ t = s)) := by
  cases ho with
  | hold k hi hin => exact .inr ⟨hs, .inr (.inr ⟨⟨k, hi⟩, hin, rfl⟩)⟩
  | fault | readFault | halt => exact .inl ⟨by simp, rfl⟩
  | jump k hj => exact .inr ⟨hs, .inr (.inl hj)⟩
  | read | write | store | acc | divZero | untaken => exact .inr ⟨hs, .inl rfl⟩

/-- Settles O17. -/
theorem programCounterAdvancesJumpsOrStays : Obligations.ProgramCounterAdvancesJumpsOrStays := by
  intro s t hs hstep
  rcases step_outcomes s t hstep with ⟨hns, -⟩ | ⟨-, -, rfl⟩ | ⟨c, -, -, -, rfl⟩ |
    ⟨w, -, -, rfl⟩ | ⟨i, hat, -, ho⟩
  · exact absurd hs hns
  · exact ⟨fun _ => rfl, fun ht => nomatch ht⟩
  · exact ⟨fun _ => rfl, fun ht => nomatch ht⟩
  · exact ⟨fun ht => absurd hs ht, fun _ => .inl rfl⟩
  · rcases ho.pc_cases i s t hs with ⟨hns, hpc⟩ | ⟨hrun, hpc⟩
    · exact ⟨fun _ => hpc, fun ht => absurd ht hns⟩
    · refine ⟨fun ht => absurd hrun ht, fun _ => ?_⟩
      rcases hpc with hpc | hj | ⟨⟨k, rfl⟩, hin, rfl⟩
      · exact .inl hpc
      · refine .inr (.inl ⟨t.pc, rfl, ?_⟩)
        rcases hj with rfl | ⟨rfl, hneg⟩ | ⟨rfl, hzero⟩
        · exact .inl hat
        · exact .inr (.inl ⟨hat, hneg⟩)
        · exact .inr (.inr ⟨hat, hzero⟩)
      · exact .inr (.inr ⟨⟨k, hat, hin⟩, rfl⟩)

end Sys2Proof.Machine

/-! The run state (R12): the fault table R160 as what the meanings do, HALT, and the end of memory. -/

namespace Sys2Proof.Machine

/-! ## Operands -/

theorem numRead_ok_iff (s : State) (a : Nat) (b : Int) :
    numRead s a = .ok b ↔ a < s.cfg.cap ∧ s.cellAt a = some (.numeric b) := by
  rcases numRead_cases s a with ⟨w, hk, hc, h⟩ | ⟨x, hk, hc, h⟩ | ⟨hk, hc, h⟩ | ⟨hk, h⟩
  · simp [h, hk, hc]
  · simp [h, hc]
  · simp [h, hc]
  · simp [h, Nat.not_lt.2 hk]

theorem withNumber_of_ok (k : Nat) (s : State) (f : Int → State) (b : Int)
    (h : numRead s k = .ok b) : withNumber k s f = f b := by
  rw [withNumber, h]

theorem withNumber_of_error (k : Nat) (s : State) (f : Int → State) (c : FaultCause)
    (h : numRead s k = .error c) : withNumber k s f = raiseFault c s := by
  rw [withNumber, h]

/-- LOAD and the opcodes 30 to 34 begin with `NumRead` of their operand (R38). -/
theorem exec_of_readsNumber (i : Instr) (s : State) (hr : readsNumber i = true) :
    ∃ f, exec i s = .next (withNumber i.operand s f) := by
  cases i with
  | load k | add k | subt k | div k | mod k | mult k => exact ⟨_, rfl⟩
  | _ => cases hr

theorem exec_of_numRead_error (i : Instr) (s : State) (c : FaultCause)
    (hr : readsNumber i = true) (h : numRead s i.operand = .error c) :
    exec i s = .next (raiseFault c s) := by
  obtain ⟨f, hf⟩ := exec_of_readsNumber i s hr
  rw [hf, withNumber_of_error _ s f c h]

/-- A read fault of `MemRead` is the fault of every opcode that reads a cell (R36, R37). -/
theorem exec_of_memRead_error (i : Instr) (s : State) (c : FaultCause)
    (hr : readsCell i = true) (h : memRead s i.operand = .error c) :
    exec i s = .next (raiseFault c s) := by
  by_cases hn : readsNumber i = true
  · exact exec_of_numRead_error i s c hn (by rw [numRead, h])
  · cases i with
    | write k =>
      change memRead s k = .error c at h
      rw [exec, execWrite, withCell, h]
    | _ => exact absurd hr hn

/-- The second operand of the opcodes 30 to 34 is the number `NumRead` answers (R120). -/
theorem secondOperand_of_numRead (i : Instr) (s : State) (b : Int) (hr : readsNumber i = true)
    (hl : i.opcode ≠ 20) : secondOperand s i = some b ↔ numRead s i.operand = .ok b := by
  rw [numRead_ok_iff]
  cases i with
  | add k | subt k | div k | mod k | mult k =>
    simp only [secondOperand, Instr.operand]
    split
    · split <;> simp_all
    · simp_all
  | load k => exact absurd rfl hl
  | _ => cases hr

/-! ## Arithmetic faults -/

/-- What an arithmetic opcode does once its second operand `b` is known (R120). -/
def operateOn (b : Int) (s : State) : Instr → State
  | .add _ | .addi _ => finishChecked (s.acc + b) s
  | .subt _ | .subti _ => finishChecked (s.acc - b) s
  | .mult _ | .multi _ => finishChecked (s.acc * b) s
  | .div _ | .divi _ => divideBy b s
  | .mod _ | .modi _ => moduloBy b s
  | .read _ | .write _ | .load _ | .store _ | .loadi _ | .jump _ | .jumpn _ | .jumpz _
  | .halt _ => s

theorem exec_of_secondOperand (i : Instr) (s : State) (b : Int)
    (hb : secondOperand s i = some b) : exec i s = .next (operateOn b s i) := by
  cases i with
  | add k | subt k | div k | mod k | mult k =>
    have hn := (secondOperand_of_numRead _ s b rfl (by simp [Instr.opcode])).1 hb
    exact congrArg Host.Outcome.next (withNumber_of_ok k s _ b hn)
  | addi k | subti k | divi k | modi k | multi k =>
    obtain rfl := Option.some.inj hb
    rfl
  | _ => cases hb

theorem finishChecked_faulted_iff (r : Int) (s : State) (c : FaultCause)
    (hs : s.state = .running) :
    (finishChecked r s).state = .faulted c ↔ c = .arithRange ∧ (r < -9999 ∨ 9999 < r) := by
  rcases finishChecked_cases r s with ⟨hr, h⟩ | ⟨hr, h⟩
  · simp only [h, hs, reduceCtorEq, false_iff]
    omega
  · simp [h, hr, eq_comm]

theorem divideBy_faulted_iff (b : Int) (s : State) (c : FaultCause) (hs : s.state = .running) :
    (divideBy b s).state = .faulted c ↔
      c = .arithRange ∧ ∃ r, (if b = 0 then 0 else s.acc.tdiv b) = r ∧ (r < -9999 ∨ 9999 < r) := by
  rcases divideBy_cases b s with ⟨hb, h⟩ | ⟨hb, h⟩
  · rw [h]
    simp [hb, hs]
  · rw [h, finishChecked_faulted_iff _ s c hs, tdiv_eq_int_tdiv]
    simp [hb]

theorem moduloBy_faulted_iff (b : Int) (s : State) (c : FaultCause) (hs : s.state = .running) :
    (moduloBy b s).state = .faulted c ↔ c = .modZero ∧ b = 0 := by
  rcases moduloBy_cases b s with ⟨hb, h⟩ | ⟨hb, h⟩
  · rw [h]
    simp [hb, eq_comm]
  · rw [h]
    simp [hb, hs]

/-- The faults of an arithmetic opcode whose operand could be read: a zero divisor of MOD, and a
result out of range (R120, R123). -/
theorem operateOn_faulted_iff (i : Instr) (b : Int) (s : State) (c : FaultCause)
    (hs : s.state = .running) :
    (operateOn b s i).state = .faulted c ↔
      (c = .modZero ∧ (i.opcode = 33 ∨ i.opcode = 38) ∧ b = 0) ∨
      (c = .arithRange ∧ ∃ r, checkedResult s.acc b i = some r ∧ (r < -9999 ∨ 9999 < r)) := by
  cases i with
  | add k | subt k | mult k | addi k | subti k | multi k =>
    simp [operateOn, finishChecked_faulted_iff, hs, checkedResult, Instr.opcode]
  | div k | divi k => simp [operateOn, divideBy_faulted_iff, hs, checkedResult, Instr.opcode]
  | mod k | modi k => simp [operateOn, moduloBy_faulted_iff, hs, checkedResult, Instr.opcode]
  | _ => simp [operateOn, hs, checkedResult, Instr.opcode]

/-! ## READ -/

theorem exec_read_cons (k : Nat) (s : State) (item : InputItem) (rest : List InputItem)
    (hs : s.input = item :: rest) :
    exec (.read k) s = .next (acceptInput k item (s.withInput rest)) := by
  rw [exec, execRead, hs]

theorem storeCell_absent (k : Nat) (c : Cell) (s : State) (hk : s.cfg.cap ≤ k) :
    storeCell k c s = raiseFault .addressOutOfRange s := by
  rcases storeCell_cases k c s with ⟨hlt, -⟩ | ⟨-, h⟩
  · omega
  · exact h

theorem storeCell_faulted_iff (k : Nat) (c : Cell) (s : State) (d : FaultCause)
    (hs : s.state = .running) :
    (storeCell k c s).state = .faulted d ↔ d = .addressOutOfRange ∧ s.cfg.cap ≤ k := by
  rcases storeCell_cases k c s with ⟨hk, h⟩ | ⟨hk, h⟩
  · simp [h, hs, hk]
  · simp [h, hk, eq_comm]

theorem acceptInput_of_range (k : Nat) (z : Int) (s : State) (hz : z < -9999 ∨ 9999 < z) :
    acceptInput k (.inInt z) s = raiseFault .inputRange s := by
  rw [acceptInput, if_neg (by simp [(not_inRange_iff z).2 hz])]

/-- The range test comes before the address (R166). -/
theorem acceptInput_absent (k : Nat) (item : InputItem) (s : State)
    (hz : ∀ z, item = .inInt z → -9999 ≤ z ∧ z ≤ 9999) (hk : s.cfg.cap ≤ k) :
    acceptInput k item s = raiseFault .addressOutOfRange s := by
  cases item with
  | inInt z => rw [acceptInput, if_pos ((inRange_iff z).2 (hz z rfl)), storeCell_absent k _ s hk]
  | inTok x => exact storeCell_absent k _ s hk

theorem faultsWith_of_read (k : Nat) (s t : State) (c : FaultCause) (hs : s.state = .running)
    (hat : AtInstr s (.read k)) (h : execRead k s = .next t) (hf : t.state = .faulted c) :
    FaultsWith s c := by
  rcases execRead_cases k s t h with ⟨-, rfl⟩ | ⟨item, rest, hin, hr⟩
  · rw [hs] at hf
    cases hf
  · rcases hr with ⟨z, rfl, hz, rfl⟩ | ⟨hz, d, -, -, rfl⟩
    · cases hf
      exact .inputRange k z rest hat hin hz
    · obtain ⟨rfl, hk⟩ := (storeCell_faulted_iff k d (s.withInput rest) c hs).1 hf
      exact .readAddress k item rest hat hin hz hk

/-! ## The fault table -/

theorem faultsWith_of_operateOn (i : Instr) (s : State) (b : Int) (c : FaultCause)
    (hs : s.state = .running) (hat : AtInstr s i) (hb : secondOperand s i = some b)
    (hf : (operateOn b s i).state = .faulted c) : FaultsWith s c := by
  rcases (operateOn_faulted_iff i b s c hs).1 hf with ⟨rfl, hm, rfl⟩ | ⟨rfl, r, hr, hz⟩
  · exact .modZero i hat hm hb
  · exact .arithRange i b r hat hb hr hz

theorem readsCell_of_readsNumber (i : Instr) (hr : readsNumber i = true) : readsCell i = true := by
  cases i with
  | write k => rfl
  | _ => exact hr

/-- The faults of LOAD and the opcodes 30 to 34 are in the table. -/
theorem faultsWith_of_readsNumber (i : Instr) (s t : State) (c : FaultCause)
    (hs : s.state = .running) (hat : AtInstr s i) (hr : readsNumber i = true)
    (h : exec i s = .next t) (hf : t.state = .faulted c) : FaultsWith s c := by
  have hcell := readsCell_of_readsNumber i hr
  have cause_of_error : ∀ d, numRead s i.operand = .error d → d = c := fun d hd => by
    rw [exec_of_numRead_error i s d hr hd] at h
    cases h
    exact RunState.faulted.inj hf
  rcases numRead_cases s i.operand with ⟨w, hk, hc, hn⟩ | ⟨x, hk, hc, hn⟩ | ⟨hk, hc, hn⟩ | ⟨hk, hn⟩
  · by_cases hl : i.opcode = 20
    · cases i with
      | load k =>
        cases h
        rw [withNumber_of_ok k s _ w hn, State.advance_state, State.setAcc_state, hs] at hf
        cases hf
      | _ => cases hl
    · have hb := (secondOperand_of_numRead i s w hr hl).2 hn
      rw [exec_of_secondOperand i s w hb] at h
      cases h
      exact faultsWith_of_operateOn i s w c hs hat hb hf
  · exact cause_of_error _ hn ▸ .operandRaw i x hat hr hk hc
  · exact cause_of_error _ hn ▸ .operandUninit i hat hcell hk hc
  · exact cause_of_error _ hn ▸ .operandAddress i hat hcell hk

/-- Every fault of an instruction is in the table (R160). -/
theorem faultsWith_of_exec (i : Instr) (s t : State) (c : FaultCause) (hs : s.state = .running)
    (hat : AtInstr s i) (h : exec i s = .next t) (hf : t.state = .faulted c) :
    FaultsWith s c := by
  cases i with
  | read k => exact faultsWith_of_read k s t c hs hat h hf
  | write k =>
    cases h
    rcases withCell_cases k s (fun d => (s.emit (outputOf d)).advance) with
      ⟨d, -, -, he⟩ | ⟨hk, hc, he⟩ | ⟨hk, he⟩ <;> rw [he] at hf
    · rw [State.advance_state, State.emit_state, hs] at hf
      cases hf
    · cases hf
      exact .operandUninit _ hat rfl hk hc
    · cases hf
      exact .operandAddress _ hat rfl hk
  | load k | add k | subt k | div k | mod k | mult k =>
    exact faultsWith_of_readsNumber _ s t c hs hat rfl h hf
  | store k =>
    cases h
    obtain ⟨rfl, hk⟩ := (storeCell_faulted_iff k _ s c hs).1 hf
    exact .storeAddress k hat hk
  | addi k | subti k | divi k | modi k | multi k =>
    rw [exec_of_secondOperand _ s k rfl] at h
    cases h
    exact faultsWith_of_operateOn _ s k c hs hat rfl hf
  | loadi k | jump k =>
    cases h
    exact absurd (hs.symm.trans hf) (by simp)
  | jumpn k | jumpz k =>
    cases h
    rw [branchIf] at hf
    split at hf <;> exact absurd (hs.symm.trans hf) (by simp)
  | halt k =>
    cases h
    cases hf

/-- Every row of the table is a fault entry (R160, R167). -/
theorem step_faulted_of_faultsWith (s t : State) (c : FaultCause) (hs : s.state = .running)
    (hp : s.pc < s.cfg.cap) (h : FaultsWith s c) (hstep : step s = .next t) :
    t.state = .faulted c := by
  have faulted_of : ∀ u, step s = .next (raiseFault c u) → t.state = .faulted c := fun u hu => by
    rw [hu] at hstep
    cases hstep
    rfl
  cases h with
  | fetchUninit hc =>
    refine faulted_of s ?_
    rw [step_of_cycle s hs hp, cycle, fetchWord, memRead_uninit s s.pc hp hc]
  | fetchRaw x hc =>
    refine faulted_of s ?_
    rw [step_of_cycle s hs hp, cycle, fetchWord, memRead_cell s s.pc _ hp hc]
  | inputRange k z rest hat hin hz =>
    refine faulted_of (s.withInput rest) ?_
    rw [step_atInstr s _ hat, exec_read_cons k s _ rest hin, acceptInput_of_range k z _ hz]
  | readAddress k item rest hat hin hz hk =>
    refine faulted_of (s.withInput rest) ?_
    rw [step_atInstr s _ hat, exec_read_cons k s item rest hin,
      acceptInput_absent k item (s.withInput rest) hz hk]
  | storeAddress k hat hk =>
    refine faulted_of s ?_
    rw [step_atInstr s _ hat, exec, execStore, storeCell_absent k _ s hk]
  | operandAddress i hat hr hk =>
    refine faulted_of s ?_
    rw [step_atInstr s i hat, exec_of_memRead_error i s _ hr (memRead_absent s _ hk)]
  | operandUninit i hat hr hk hc =>
    refine faulted_of s ?_
    rw [step_atInstr s i hat, exec_of_memRead_error i s _ hr (memRead_uninit s _ hk hc)]
  | operandRaw i x hat hr hk hc =>
    refine faulted_of s ?_
    have hn : numRead s i.operand = .error .nonNumericOperand := by
      rw [numRead, memRead_cell s _ _ hk hc]
    rw [step_atInstr s i hat, exec_of_numRead_error i s _ hr hn]
  | modZero i hat hm hb =>
    rw [step_atInstr s i hat, exec_of_secondOperand i s 0 hb] at hstep
    cases hstep
    exact (operateOn_faulted_iff i 0 s _ hs).2 (.inl ⟨rfl, hm, rfl⟩)
  | arithRange i b r hat hb hr hz =>
    rw [step_atInstr s i hat, exec_of_secondOperand i s b hb] at hstep
    cases hstep
    exact (operateOn_faulted_iff i b s _ hs).2 (.inr ⟨rfl, r, hr, hz⟩)

/-- A cycle raises a cause exactly when the fault table says so (R160, R166). -/
theorem step_faulted_iff (s t : State) (c : FaultCause) (hs : s.state = .running)
    (hp : s.pc < s.cfg.cap) (hstep : step s = .next t) :
    t.state = .faulted c ↔ FaultsWith s c := by
  refine ⟨fun hf => ?_, fun h => step_faulted_of_faultsWith s t c hs hp h hstep⟩
  rcases step_cases s t hstep with ⟨hns, -⟩ | ⟨-, hcap, -⟩ | ⟨-, -, hc, rfl⟩ | ⟨x, -, -, hc, rfl⟩ |
    ⟨w, -, -, rfl⟩ | ⟨w, i, hw, hd, he⟩
  · exact absurd hs hns
  · omega
  · cases hf
    exact .fetchUninit hc
  · cases hf
    exact .fetchRaw x hc
  · exact absurd (hs.symm.trans hf) (by simp)
  · exact faultsWith_of_exec i s t c hs ⟨w, hw, hd⟩ he hf

/-! ## HALT and the end of memory -/

/-- The HALT words are the block from 4300 to 4399 (R54, R56). -/
theorem decode_halt_iff (w : Int) :
    (∃ k, decode w = .ok (.halt k)) ↔ 4300 ≤ w ∧ w ≤ 4399 := by
  constructor
  · rintro ⟨k, hd⟩
    obtain ⟨hw, hk⟩ := word_of_decode w _ hd
    simp only [Instr.opcode, Instr.operand] at hw hk
    omega
  · rintro ⟨hlo, hhi⟩
    obtain ⟨k, hk, rfl⟩ : ∃ k : Nat, k ≤ 99 ∧ w = ((43 : Nat) : Int) * 100 + (k : Int) :=
      ⟨(w - 4300).toNat, by omega, by omega⟩
    exact ⟨k, decode_of_fields 43 k hk⟩

/-- An instruction leaves the run state, faults, or is HALT. -/
theorem Outcomes.state_cases (i : Instr) (s t : State) (ho : Outcomes i s t) :
    t.state = s.state ∨ (∃ c, t.state = .faulted c) ∨ (t.state = .halted ∧ ∃ k, i = .halt k) := by
  cases ho with
  | fault c | readFault _ _ _ c => exact .inr (.inl ⟨c, rfl⟩)
  | halt k hi => exact .inr (.inr ⟨rfl, k, hi⟩)
  | _ => exact .inl rfl

/-- The run state after a step of a Running engine, faults apart (R12). -/
theorem step_state_cases (s t : State) (hs : s.state = .running) (hstep : step s = .next t) :
    (s.cfg.cap ≤ s.pc ∧ t.state = .exhausted) ∨
    (s.pc < s.cfg.cap ∧ (t.state = .running ∨ (∃ c, t.state = .faulted c) ∨
      (t.state = .halted ∧ ∃ k, AtInstr s (.halt k)))) := by
  rcases step_outcomes s t hstep with ⟨hns, -⟩ | ⟨-, hcap, rfl⟩ | ⟨c, -, hp, -, rfl⟩ |
    ⟨w, hw, -, rfl⟩ | ⟨i, hat, -, ho⟩
  · exact absurd hs hns
  · exact .inl ⟨hcap, rfl⟩
  · exact .inr ⟨hp, .inr (.inl ⟨c, rfl⟩)⟩
  · exact .inr ⟨hw.2.1, .inl hs⟩
  · refine .inr ⟨(running_of_atInstr s i hat).2, ?_⟩
    rcases ho.state_cases i s t with h | hfault | ⟨h, k, rfl⟩
    · exact .inl (h.trans hs)
    · exact .inr (.inl hfault)
    · exact .inr (.inr ⟨h, k, hat⟩)

theorem step_exhausted_iff (s t : State) (hs : s.state = .running) (hstep : step s = .next t) :
    t.state = .exhausted ↔ s.cfg.cap ≤ s.pc := by
  rcases step_state_cases s t hs hstep with ⟨hcap, h⟩ | ⟨hp, h | ⟨c, h⟩ | ⟨h, -⟩⟩
  · simp [h, hcap]
  all_goals simp [h, hp]

theorem step_halted_iff (s t : State) (hs : s.state = .running) (hstep : step s = .next t) :
    t.state = .halted ↔ ∃ k, AtInstr s (.halt k) := by
  constructor
  · intro ht
    rcases step_state_cases s t hs hstep with ⟨-, h⟩ | ⟨-, h | ⟨c, h⟩ | ⟨-, hk⟩⟩
    · cases ht.symm.trans h
    · cases ht.symm.trans h
    · cases ht.symm.trans h
    · exact hk
  · rintro ⟨k, hat⟩
    rw [step_atInstr s _ hat] at hstep
    cases hstep
    rfl

theorem atInstr_halt_iff (s : State) :
    (∃ k, AtInstr s (.halt k)) ↔ ∃ w, AtWord s w ∧ 4300 ≤ w ∧ w ≤ 4399 := by
  constructor
  · rintro ⟨k, w, hw, hd⟩
    exact ⟨w, hw, (decode_halt_iff w).1 ⟨k, hd⟩⟩
  · rintro ⟨w, hw, hrange⟩
    obtain ⟨k, hd⟩ := (decode_halt_iff w).2 hrange
    exact ⟨k, w, hw, hd⟩

/-- Settles O9, row by row: beyond `CAP` no cycle is performed, so no fault is raised there. -/
theorem runStateFollowsItsTransitionTable : Obligations.RunStateFollowsItsTransitionTable := by
  refine ⟨fun s t hstep => ⟨fun hns => ?_, fun hs => ⟨?_, ?_, fun c => ?_⟩⟩, fun n s => rfl⟩
  · rw [step_of_terminal s hns] at hstep
    exact (Host.Outcome.next.inj hstep).symm
  · exact step_exhausted_iff s t hs hstep
  · exact (step_halted_iff s t hs hstep).trans (atInstr_halt_iff s)
  · by_cases hp : s.pc < s.cfg.cap
    · rw [step_faulted_iff s t c hs hp hstep, and_iff_right hp]
    · have hex := (step_exhausted_iff s t hs hstep).2 (Nat.not_lt.1 hp)
      simp [hex, hp]

end Sys2Proof.Machine

/-! Memory (R15, R36 to R42): what a write leaves of the cells, which steps write one, and the fetch
that follows a write. -/

namespace Sys2Proof.Machine

/-! ## Reads after writes -/

/-- A write replaces one cell and no other, whatever the memory lists (R36). -/
theorem storesCell_write (s : State) (k : Nat) (c : Cell) :
    StoresCell s k c { s with mem := s.mem.write s.cfg.fill k c } :=
  ⟨Memory.read_write_same _ _ _ _, fun _ ha => Memory.read_write_other _ _ _ _ _ ha⟩

theorem memWrite_of_lt (s : State) (a : Nat) (c : Cell) (ha : a < s.cfg.cap) :
    memWrite s a c = .ok { s with mem := s.mem.write s.cfg.fill a c } :=
  if_pos ha

theorem memWrite_absent (s : State) (a : Nat) (c : Cell) (ha : s.cfg.cap ≤ a) :
    memWrite s a c = .error .addressOutOfRange :=
  if_neg (Nat.not_lt.2 ha)

/-- `MemRead` depends on the parameters and on the one cell it names (R36). -/
theorem memRead_congr (s t : State) (a : Nat) (hcfg : t.cfg = s.cfg)
    (hcell : t.cellAt a = s.cellAt a) : memRead t a = memRead s a := by
  rw [memRead, memRead, hcfg, hcell]

/-- Settles O42, over the one cell a write replaces. -/
theorem cellReadsSeeTheLatestWrite : Obligations.CellReadsSeeTheLatestWrite := by
  refine ⟨fun s a c ha => ?_, fun s a c ha => ⟨memRead_absent s a ha, memWrite_absent s a c ha⟩⟩
  obtain ⟨hsame, hother⟩ := storesCell_write s a c
  exact ⟨_, memWrite_of_lt s a c ha, memRead_cell _ a c ha hsame,
    fun b hb => memRead_congr s _ b rfl (hother b hb), rfl⟩

/-! ## Which steps write a cell -/

/-- An instruction leaves the cell `a` as it was unless it is a READ or a STORE of `a` (R39). -/
theorem Outcomes.cellAt_eq_or_writes (i : Instr) (s t : State) (a : Nat) (ho : Outcomes i s t) :
    t.cellAt a = s.cellAt a ∨ i = .read a ∨ i = .store a := by
  by_cases hi : i = .read a ∨ i = .store a
  · exact .inr hi
  · refine .inl ?_
    cases ho with
    | read k item rest c hk =>
      have hak : a ≠ k := fun h => hi (.inl (h ▸ hk))
      exact (storesCell_write s k c).2 a hak
    | store k hk =>
      have hak : a ≠ k := fun h => hi (.inr (h ▸ hk))
      exact (storesCell_write s k _).2 a hak
    | _ => rfl

/-- Settles O15: away from an instruction no step writes a cell. -/
theorem onlyReadAndStoreWriteMemory : Obligations.OnlyReadAndStoreWriteMemory := by
  intro s t a hstep hcell
  rcases step_outcomes s t hstep with ⟨-, rfl⟩ | ⟨-, -, rfl⟩ | ⟨c, -, -, -, rfl⟩ |
    ⟨w, -, -, rfl⟩ | ⟨i, hat, -, ho⟩
  · exact absurd rfl hcell
  · exact absurd rfl hcell
  · exact absurd rfl hcell
  · exact absurd rfl hcell
  · rcases (ho.cellAt_eq_or_writes i s t a).resolve_left hcell with rfl | rfl
    · exact .inl hat
    · exact .inr hat

/-! ## The fetch after a write -/

/-- The next trigger performs a cycle that fetches the cell `c`, a number or a token (R140). -/
abbrev AtCell (s : State) (c : Cell) : Prop :=
  s.state = .running ∧ s.pc < s.cfg.cap ∧ s.cellAt s.pc = some c

theorem atWord_iff_atCell (s : State) (w : Int) : AtWord s w ↔ AtCell s (.numeric w) := Iff.rfl

theorem step_atCell_raw (s : State) (x : Token) (h : AtCell s (.raw x)) :
    step s = .next (raiseFault .nonNumericFetch s) := by
  obtain ⟨hs, hp, hc⟩ := h
  rw [step_of_cycle s hs hp, cycle, fetchWord, memRead_cell s s.pc _ hp hc]

theorem storeCell_of_lt (k : Nat) (c : Cell) (s : State) (hk : k < s.cfg.cap) :
    storeCell k c s = { s with mem := s.mem.write s.cfg.fill k c, pc := s.pc + 1 } := by
  rw [storeCell, memWrite_of_lt s k c hk]
  rfl

/-- A cell stored at `pc + 1` is the next one fetched: the advance of `pc` reaches it (R42). -/
theorem atCell_storeCell_next (s : State) (c : Cell) (hs : s.state = .running)
    (hp : s.pc + 1 < s.cfg.cap) : AtCell (storeCell (s.pc + 1) c s) c := by
  rw [storeCell_of_lt (s.pc + 1) c s hp]
  exact ⟨hs, hp, (storesCell_write s (s.pc + 1) c).1⟩

theorem acceptInput_of_inRange (k : Nat) (z : Int) (s : State) (hlo : -9999 ≤ z)
    (hhi : z ≤ 9999) : acceptInput k (.inInt z) s = storeCell k (.numeric z) s :=
  if_pos ((inRange_iff z).2 ⟨hlo, hhi⟩)

theorem atCell_of_step_store (s t : State) (hp : s.pc + 1 < s.cfg.cap)
    (hat : AtInstr s (.store (s.pc + 1))) (hstep : step s = .next t) :
    AtCell t (.numeric s.acc) := by
  rw [step_atInstr s _ hat] at hstep
  cases hstep
  exact atCell_storeCell_next s _ (running_of_atInstr s _ hat).1 hp

/-- A READ into the next cell puts the cell it accepts there, with the item taken (R100, R42). -/
theorem atCell_of_step_read (s t : State) (item : InputItem) (rest : List InputItem) (c : Cell)
    (hp : s.pc + 1 < s.cfg.cap) (hat : AtInstr s (.read (s.pc + 1))) (hin : s.input = item :: rest)
    (haccept : ∀ k u, acceptInput k item u = storeCell k c u) (hstep : step s = .next t) :
    AtCell t c := by
  rw [step_atInstr s _ hat, exec_read_cons _ s item rest hin, haccept] at hstep
  cases hstep
  exact atCell_storeCell_next (s.withInput rest) c (running_of_atInstr s _ hat).1 hp

/-- Settles O44: in each clause the next trigger fetches the cell just written. -/
theorem fetchSeesTheStoreBeforeIt : Obligations.FetchSeesTheStoreBeforeIt := by
  intro s t hp hstep
  refine ⟨fun hat i hd => ?_, fun z rest hat hin hlo hhi i hd => ?_, fun x rest hat hin => ?_⟩
  · have hnext : AtWord t s.acc :=
      (atWord_iff_atCell t s.acc).2 (atCell_of_step_store s t hp hat hstep)
    exact step_atInstr t i ⟨s.acc, hnext, hd⟩
  · have hnext : AtWord t z := (atWord_iff_atCell t z).2 <|
      atCell_of_step_read s t _ rest _ hp hat hin
        (fun k u => acceptInput_of_inRange k z u hlo hhi) hstep
    exact step_atInstr t i ⟨z, hnext, hd⟩
  · have hnext : AtCell t (.raw x) :=
      atCell_of_step_read s t _ rest _ hp hat hin (fun _ _ => rfl) hstep
    rw [step_atCell_raw t x hnext, raiseFault_eq]

end Sys2Proof.Machine

/-! The encoding of a word (R50 to R57, R65): decode and encode as inverses, the words that are no
instruction and what a step does with one, and the HALT words. -/

namespace Sys2Proof.Machine

/-! ## Decode and encode -/

/-- The word of an instruction by its two fields, in integers (R65). -/
theorem encode_eq (i : Instr) : encode i = (i.opcode : Int) * 100 + (i.operand : Int) := by
  simp [encode, encodeWord]

/-- Decoding the word of a two-digit operand gives the instruction back (R65). -/
theorem decode_encode (i : Instr) (h : i.operand ≤ 99) : decode (encode i) = .ok i := by
  rw [encode_eq, decode_of_fields i.opcode i.operand h, instrOfOpcode_self]

/-- A word that decodes is the word of the instruction it decodes to (R65). -/
theorem encode_of_decode (w : Int) (i : Instr) (h : decode w = .ok i) : encode i = w :=
  (encode_eq i).trans (word_of_decode w i h).1.symm

/-- Settles O1, from the two fields of a word. -/
theorem decodeInvertsEncode : Obligations.DecodeInvertsEncode :=
  ⟨fun i hi => decode_encode i ((Instr.wf_iff i).1 hi),
    fun w i hd => ⟨(Instr.wf_iff i).2 (word_of_decode w i hd).2, encode_of_decode w i hd⟩⟩

/-! ## The words that are no instruction -/

/-- The opcode is one of the nineteen of the opcode map, by its blocks (R54). -/
abbrev AssignedOpcode (op : Nat) : Prop :=
  (10 ≤ op ∧ op ≤ 11) ∨ (20 ≤ op ∧ op ≤ 22) ∨ (30 ≤ op ∧ op ≤ 43)

theorem assignedOpcode_opcode (i : Instr) : AssignedOpcode i.opcode := by
  cases i <;> simp [AssignedOpcode, Instr.opcode]

theorem instrOfOpcode_of_assigned (op k : Nat) (h : AssignedOpcode op) :
    ∃ i, instrOfOpcode op k = some i := by
  rcases h with ⟨hlo, hhi⟩ | ⟨hlo, hhi⟩ | ⟨hlo, hhi⟩ <;> interval_cases op <;> exact ⟨_, rfl⟩

/-- The instruction words are three blocks: those of the assigned opcodes (R54, R55). -/
theorem decode_ok_exists_iff (w : Int) :
    (∃ i, decode w = .ok i) ↔
      (1000 ≤ w ∧ w ≤ 1199) ∨ (2000 ≤ w ∧ w ≤ 2299) ∨ (3000 ≤ w ∧ w ≤ 4399) := by
  constructor
  · rintro ⟨i, hd⟩
    obtain ⟨hw, hk⟩ := word_of_decode w i hd
    have hop := assignedOpcode_opcode i
    omega
  · intro hw
    obtain ⟨op, k, hop, hk, rfl⟩ :
        ∃ op k : Nat, AssignedOpcode op ∧ k ≤ 99 ∧ w = (op : Int) * 100 + (k : Int) :=
      ⟨(w / 100).toNat, (w % 100).toNat, by omega, by omega, by omega⟩
    obtain ⟨i, hi⟩ := instrOfOpcode_of_assigned op k hop
    exact ⟨i, by rw [decode_of_fields op k hk, hi]⟩

/-- A fetched word that is no instruction takes the unknown-opcode path with its field (R147). -/
theorem step_of_unassigned (s : State) (w : Int) (hat : AtWord s w) (hd : ∀ i, decode w ≠ .ok i) :
    step s = .next (unknownOpcodePath (wordOpcode w) s) := by
  rw [step_at_word s w hat, runWord]
  cases hw : decode w with
  | ok i => exact absurd hw (hd i)
  | error e =>
    obtain ⟨op⟩ := e
    rw [decode_error w op hw]

/-- Settles O2: the listed words are what the three blocks of instruction words leave. -/
theorem unassignedWordsTakeTheUnknownOpcodePath :
    Obligations.UnassignedWordsTakeTheUnknownOpcodePath := by
  refine ⟨fun w _ _ => ?_, fun s w hat hd =>
    ⟨wordOpcode w, wordOpcode_of_nonneg w, step_of_unassigned s w hat hd⟩⟩
  rw [← not_exists, decode_ok_exists_iff]
  omega

/-- Settles O3: the instruction words are their instructions' encodings, the other two words lie
outside the blocks of instruction words. -/
theorem sampleWordsDecode : Obligations.SampleWordsDecode :=
  ⟨decode_encode (.read 0) (by decide), decode_encode (.write 1) (by decide),
    decode_encode (.load 7) (by decide), decode_encode (.add 1) (by decide),
    decode_encode (.multi 99) (by decide), decode_encode (.jumpz 10) (by decide),
    decode_encode (.halt 0) (by decide), decode_encode (.halt 99) (by decide),
    not_exists.1 (mt (decode_ok_exists_iff 1200).1 (by omega)),
    not_exists.1 (mt (decode_ok_exists_iff (-2007)).1 (by omega))⟩

/-! ## HALT -/

/-- The opcode a mnemonic selects stands in the table beside its spelling (R58). -/
theorem mem_mnemonicTable_of_opcodeOf (t : Text) (op : Nat) (h : opcodeOf t = some op) :
    ∃ e ∈ mnemonicTable, e.1.toList = upper t ∧ e.2 = op := by
  obtain ⟨e, he, hop⟩ := Option.map_eq_some_iff.1 h
  exact ⟨e, List.mem_of_find?_eq_some he, of_decide_eq_true (List.find?_some he :), hop⟩

/-- HALT's is the highest opcode a mnemonic selects (R54, R58). -/
theorem opcodeOf_le (t : Text) (op : Nat) (h : opcodeOf t = some op) : op ≤ 43 := by
  have hall : ∀ e ∈ mnemonicTable, e.2 ≤ 43 := by decide
  obtain ⟨e, he, -, rfl⟩ := mem_mnemonicTable_of_opcodeOf t op h
  exact hall e he

@[simp] theorem AsmState.emitWord_words (op k : Nat) (st : AsmState) :
    (st.emitWord op k).words = st.words ++ [encodeWord op k] := rfl

@[simp] theorem AsmState.warnUndefined_words (t : Text) (st : AsmState) :
    (st.warnUndefined t).words = st.words := rfl

/-- The words hold no HALT word, and nothing above one, other than 4300 (R56, R80). -/
abbrev OnlyPlainHalt (ws : List Int) : Prop := ∀ w ∈ ws, 4300 ≤ w → w = 4300

theorem OnlyPlainHalt.concat_encodeWord (ws : List Int) (op k : Nat) (h : OnlyPlainHalt ws)
    (hop : op < 43 ∧ k ≤ 99 ∨ op = 43 ∧ k = 0) : OnlyPlainHalt (ws ++ [encodeWord op k]) := by
  intro w hw hlo
  rcases List.mem_append.1 hw with hmem | hnew
  · exact h w hmem hlo
  · rw [List.mem_singleton, encodeWord] at hnew
    omega

/-- An accepted line adds no HALT word but 4300: HALT's operand is never encoded, and every other
opcode lies below 43 (R77, R80). -/
theorem wordLine_onlyPlainHalt (st st' : AsmState) (l : LineClass) (h : OnlyPlainHalt st.words)
    (hl : wordLine st l = .ok st') : OnlyPlainHalt st'.words := by
  rcases wordLine_ok st st' l hl with ⟨rfl, -⟩ | ⟨m, ts, -, he⟩
  · exact h
  · rcases encodeLine_ok m ts st st' he with ⟨-, -, rfl⟩ |
      ⟨op, t, hop, h43, -, ⟨k, -, hk, rfl⟩ | ⟨-, rfl⟩⟩
    · exact h.concat_encodeWord _ 43 0 (.inr ⟨rfl, rfl⟩)
    · have hlt : op < 43 := lt_of_le_of_ne (opcodeOf_le m op hop) h43
      exact h.concat_encodeWord _ op k (.inl ⟨hlt, hk⟩)
    · have hlt : op < 43 := lt_of_le_of_ne (opcodeOf_le m op hop) h43
      exact h.concat_encodeWord _ op 0 (.inl ⟨hlt, Nat.zero_le 99⟩)

theorem image_onlyPlainHalt (ls : List LineClass) (img : Image)
    (h : (assembleClasses ls).phase = .image img) : OnlyPlainHalt img.words := by
  obtain ⟨a, b, c, ha, hb, hc, -, rfl⟩ := assembleClasses_image ls img h
  obtain ⟨-, hwa, -⟩ := scan1A_frame ls a ha
  obtain ⟨-, -, hwb, -⟩ := scan1B_frame ls a b hb
  have hnone : OnlyPlainHalt b.enterScan2.words := fun w hw => by
    rw [show b.enterScan2.words = [] from hwb.trans hwa] at hw
    exact absurd hw List.not_mem_nil
  exact scanLines_keeps wordLine (fun st => OnlyPlainHalt st.words)
    (fun st l st' => wordLine_onlyPlainHalt st st' l) ls b.enterScan2 c hnone hc

/-- Settles O4: every word of the block is HALT, and scan 2 encodes HALT with operand 0. -/
theorem haltIgnoresItsOperandDigits : Obligations.HaltIgnoresItsOperandDigits := by
  refine ⟨fun s w hat hlo hhi => ?_, fun lines img himg => image_onlyPlainHalt _ img himg⟩
  obtain ⟨k, hd⟩ := (decode_halt_iff w).2 ⟨hlo, hhi⟩
  exact step_atInstr s (.halt k) ⟨w, hat, hd⟩

end Sys2Proof.Machine

/-! The classes of a line (R58 to R63): `tokens`, `trim` and `classify` against the grammar's own terms,
what blanks around a line leave, and the classes of the concrete forms. -/

namespace Sys2Proof.Machine

/-! ## Tokens -/

/-- Characters of one token: none separates and none is `=` (R59). -/
abbrev WordText (w : Text) : Prop := ∀ c ∈ w, ¬ IsBlank c ∧ c ≠ '='

/-- A token in front of the text ends there: at a blank, a `=` or the end (R59). -/
abbrev EndsWord (rest : Text) : Prop := ∀ c, rest.head? = some c → IsBlank c ∨ c = '='

theorem endsWord_nil : EndsWord [] := fun _ hc => nomatch hc

theorem endsWord_append (x y : Text) (hx : EndsWord x) (hy : x = [] → EndsWord y) :
    EndsWord (x ++ y) := by
  cases x with
  | nil => exact hy rfl
  | cons c cs => exact hx

theorem endsWord_of_allBlank (gap : Text) (h : AllBlank gap) : EndsWord gap :=
  fun c hc => .inl (h c (List.mem_of_head? hc))

/-- Closing the open token puts it in front of the tokens of the rest. -/
theorem tokenized_closeToken (current rest : Text) (ts : List Text) (hw : WordText current)
    (hr : EndsWord rest) (h : Tokenized rest ts) :
    Tokenized (current.reverse ++ rest) (closeToken current ts) := by
  by_cases hn : current = []
  · subst hn
    exact h
  · rw [closeToken, if_neg (by simpa using hn)]
    exact .word _ rest ts (by simpa using hn) (fun c hc => hw c (List.mem_reverse.1 hc)) hr h

/-- The scan of a text with an open token answers the tokens of both. -/
theorem tokenized_tokensFrom (t current : Text) (hw : WordText current) :
    Tokenized (current.reverse ++ t) (tokensFrom t current) := by
  induction t generalizing current with
  | nil => exact tokenized_closeToken current [] [] hw endsWord_nil .done
  | cons c cs ih =>
    have hrest : Tokenized cs (tokensFrom cs []) := ih [] (List.forall_mem_nil _)
    rw [tokensFrom]
    by_cases hb : IsBlank c
    · rw [if_pos ((isSeparator_iff c).2 hb)]
      exact tokenized_closeToken current _ _ hw (by simp [EndsWord, hb]) (.gap c cs _ hb hrest)
    · rw [if_neg (mt (isSeparator_iff c).1 hb)]
      by_cases he : c = '='
      · subst he
        rw [if_pos rfl]
        exact tokenized_closeToken current _ _ hw (by simp [EndsWord]) (.equals cs _ hrest)
      · rw [if_neg he]
        simpa using ih (c :: current) (List.forall_mem_cons.2 ⟨⟨hb, he⟩, hw⟩)

/-- The tokens are those R59 describes, and no others. -/
theorem tokenized_iff (line : Text) (ts : List Text) : Tokenized line ts ↔ tokens line = ts := by
  constructor
  · intro h
    induction h with
    | done => rfl
    | gap c rest ts hc _ ih => rw [tokens_gap c rest hc, ih]
    | equals rest ts _ ih => rw [tokens_equals, ih]
    | word w rest ts hw hc hr _ ih => rw [tokens_word w rest hw hc hr, ih]
  · rintro rfl
    exact tokenized_tokensFrom line [] (List.forall_mem_nil _)

theorem tokens_blanks_append (pre x : Text) (h : AllBlank pre) : tokens (pre ++ x) = tokens x := by
  induction pre with
  | nil => rfl
  | cons c cs ih =>
    obtain ⟨hc, hcs⟩ := List.forall_mem_cons.1 h
    rw [List.cons_append, tokens_gap c _ hc, ih hcs]

theorem tokens_of_allBlank (line : Text) (h : AllBlank line) : tokens line = [] := by
  simpa using tokens_blanks_append line [] h

/-- Blanks after a text are no part of a token. -/
theorem Tokenized.append_blanks (x post : Text) (ts : List Text) (h : Tokenized x ts)
    (hp : AllBlank post) : Tokenized (x ++ post) ts := by
  induction h with
  | done => exact (tokenized_iff _ _).2 (tokens_of_allBlank post hp)
  | gap c rest ts hc _ ih => exact .gap c _ ts hc ih
  | equals rest ts _ ih => exact .equals _ ts ih
  | word w rest ts hw hc hr _ ih =>
    rw [List.append_assoc]
    exact .word w _ ts hw hc (endsWord_append rest post hr fun _ => endsWord_of_allBlank post hp) ih

theorem tokens_append_blanks (x post : Text) (h : AllBlank post) : tokens (x ++ post) = tokens x :=
  (tokenized_iff _ _).1 (((tokenized_iff x _).2 rfl).append_blanks x post _ h)

/-- A text without tokens is blank: every other form puts a token in front. -/
theorem Tokenized.allBlank (line : Text) (ts : List Text) (h : Tokenized line ts) (hts : ts = []) :
    AllBlank line := by
  induction h with
  | done => exact allBlank_nil
  | gap c rest ts hc _ ih => exact List.forall_mem_cons.2 ⟨hc, ih hts⟩
  | equals => cases hts
  | word => cases hts

theorem tokens_eq_nil_iff (line : Text) : tokens line = [] ↔ AllBlank line :=
  ⟨fun h => ((tokenized_iff line []).2 h).allBlank line [] rfl, tokens_of_allBlank line⟩

/-! ## Trimming -/

theorem trimsTo_iff (line t : Text) : TrimsTo line t ↔ trim line = t :=
  ⟨trim_of_trimsTo line t, fun h => h ▸ trimsTo_trim line⟩

theorem allBlank_append (x y : Text) (hx : AllBlank x) (hy : AllBlank y) : AllBlank (x ++ y) :=
  List.forall_mem_append.2 ⟨hx, hy⟩

/-- Blanks around a line leave its trimmed text. -/
theorem trim_surrounded (pre line post : Text) (hpre : AllBlank pre) (hpost : AllBlank post) :
    trim (pre ++ line ++ post) = trim line := by
  obtain ⟨⟨p, q, hp, hq, hline⟩, hhead, hlast⟩ := trimsTo_trim line
  refine trim_of_trimsTo _ _ ⟨⟨pre ++ p, q ++ post, allBlank_append pre p hpre hp,
    allBlank_append q post hq hpost, ?_⟩, hhead, hlast⟩
  conv_lhs => rw [hline]
  simp only [List.append_assoc]

/-- A line that trims to some text has a token. -/
theorem tokens_ne_nil_of_trimsTo (line t : Text) (h : TrimsTo line t) (ht : t ≠ []) :
    tokens line ≠ [] := by
  obtain ⟨⟨pre, post, -, -, rfl⟩, hhead, -⟩ := h
  obtain ⟨c, cs, rfl⟩ := List.exists_cons_of_ne_nil ht
  intro hnil
  exact hhead c rfl ((tokens_eq_nil_iff _).1 hnil c (by simp))

/-! ## The five tests -/

theorem isComment_iff (t : Text) : isComment t = true ↔ ∃ rest, t = '/' :: '/' :: rest := by
  rcases t with _ | ⟨c, _ | ⟨d, rest⟩⟩ <;> simp [isComment]

theorem isLabelLine_iff (t : Text) : isLabelLine t = true ↔ ∃ body, t = body ++ [':'] := by
  rw [isLabelLine, beq_iff_eq, List.getLast?_eq_some_iff]

theorem commentText_iff (line : Text) : CommentText line ↔ isComment (trim line) = true :=
  (exists_congr fun _ => trimsTo_iff line _).trans (isComment_iff (trim line)).symm

theorem labelText_iff (line name : Text) :
    LabelText line name ↔ isLabelLine (trim line) = true ∧ trim (trim line).dropLast = name := by
  simp only [LabelText, trimsTo_iff, isLabelLine_iff]
  constructor
  · rintro ⟨body, hline, hname⟩
    exact ⟨⟨body, hline⟩, by rw [hline, List.dropLast_concat, hname]⟩
  · rintro ⟨⟨body, hline⟩, hname⟩
    exact ⟨body, hline, by rwa [hline, List.dropLast_concat] at hname⟩

/-- A line's class depends on its tokens and its trimmed text only. -/
theorem classify_congr (x y : Text) (htok : tokens x = tokens y) (htrim : trim x = trim y) :
    classify x = classify y := by
  rw [classify, classify, htok, htrim]

/-- Test 1 (R60). -/
theorem classify_of_allBlank (line : Text) (h : AllBlank line) : classify line = .blank := by
  rw [classify, tokens_of_allBlank line h]

/-- Test 2 (R60): a line with `//` has a token, so test 1 fails on it. -/
theorem classify_of_comment (line : Text) (h : CommentText line) : classify line = .comment := by
  obtain ⟨rest, hrest⟩ := h
  obtain ⟨tok, toks, htok⟩ :=
    List.exists_cons_of_ne_nil (tokens_ne_nil_of_trimsTo line _ hrest (by simp))
  simp only [classify, htok, (commentText_iff line).1 ⟨rest, hrest⟩, if_true]

/-- Test 3 (R60): a line with a colon has a token, so test 1 fails on it. -/
theorem classify_of_label (line name : Text) (hc : ¬ CommentText line) (h : LabelText line name) :
    classify line = .labelDef name := by
  obtain ⟨hl, hname⟩ := (labelText_iff line name).1 h
  obtain ⟨body, hbody, -⟩ := h
  obtain ⟨tok, toks, htok⟩ :=
    List.exists_cons_of_ne_nil (tokens_ne_nil_of_trimsTo line _ hbody (by simp))
  simp only [classify, htok, if_neg (mt (commentText_iff line).2 hc), hl, hname, if_true]

/-- Tests 4 and 5 (R60): what is no comment and no label is decided by its tokens. -/
theorem classify_of_tokens (line tok : Text) (rest : List Text) (hc : ¬ CommentText line)
    (hl : ∀ name, ¬ LabelText line name) (ht : tokens line = tok :: rest) :
    classify line = (declaredValue tok rest).elim (.instr tok rest) (.varDecl tok) := by
  have hnl : ¬ isLabelLine (trim line) = true := fun h => hl _ ((labelText_iff line _).2 ⟨h, rfl⟩)
  simp only [classify, ht, if_neg (mt (commentText_iff line).2 hc), if_neg hnl]
  cases declaredValue tok rest <;> rfl

theorem classify_of_declaration (line tok : Text) (rest : List Text) (v : Int)
    (hc : ¬ CommentText line) (hl : ∀ name, ¬ LabelText line name)
    (ht : tokens line = tok :: rest) (h : DeclarationTokens tok rest v) :
    classify line = .varDecl tok v := by
  rw [classify_of_tokens line tok rest hc hl ht, (declaredValue_iff tok rest v).2 h]
  rfl

theorem classify_of_no_declaration (line tok : Text) (rest : List Text)
    (hc : ¬ CommentText line) (hl : ∀ name, ¬ LabelText line name)
    (ht : tokens line = tok :: rest) (h : ∀ v, ¬ DeclarationTokens tok rest v) :
    classify line = .instr tok rest := by
  have hnone : declaredValue tok rest = none :=
    Option.eq_none_iff_forall_ne_some.2 fun v hv => h v ((declaredValue_iff tok rest v).1 hv)
  rw [classify_of_tokens line tok rest hc hl ht, hnone]
  rfl

/-- Every line has a class, the first of R60's tests that holds. -/
theorem exists_classified (line : Text) : ∃ c, Classified line c := by
  by_cases hc : CommentText line
  · exact ⟨_, .comment hc⟩
  by_cases hl : ∃ name, LabelText line name
  · obtain ⟨name, hname⟩ := hl
    exact ⟨_, .labelDef name hc hname⟩
  rw [not_exists] at hl
  cases ht : tokens line with
  | nil => exact ⟨_, .blank ((tokenized_iff line _).2 ht)⟩
  | cons tok rest =>
    have htok := (tokenized_iff line _).2 ht
    by_cases hd : ∃ v, DeclarationTokens tok rest v
    · obtain ⟨v, hv⟩ := hd
      exact ⟨_, .varDecl tok rest v htok hc hl hv⟩
    · exact ⟨_, .instr tok rest htok hc hl (not_exists.1 hd)⟩

theorem classify_of_classified (line : Text) (c : LineClass) (h : Classified line c) :
    classify line = c := by
  cases h with
  | blank h => exact classify_of_allBlank line ((tokens_eq_nil_iff line).1 ((tokenized_iff _ _).1 h))
  | comment h => exact classify_of_comment line h
  | labelDef name hc h => exact classify_of_label line name hc h
  | varDecl tok rest v ht hc hl h =>
    exact classify_of_declaration line tok rest v hc hl ((tokenized_iff _ _).1 ht) h
  | instr tok rest ht hc hl hd =>
    exact classify_of_no_declaration line tok rest hc hl ((tokenized_iff _ _).1 ht) hd

/-- `classify` answers the one class R60 gives the line. -/
theorem classified_iff (line : Text) (c : LineClass) : Classified line c ↔ classify line = c := by
  refine ⟨classify_of_classified line c, ?_⟩
  rintro rfl
  obtain ⟨c, hc⟩ := exists_classified line
  rwa [classify_of_classified line c hc]

/-- Settles O55: blanks around a line change neither its tokens nor its trimmed text. -/
theorem surroundingBlanksDoNotChangeTheClass :
    Obligations.SurroundingBlanksDoNotChangeTheClass := by
  intro pre line post hpre hpost
  refine classify_congr _ _ ?_ (trim_surrounded pre line post hpre hpost)
  rw [tokens_append_blanks _ post hpost, tokens_blanks_append pre line hpre]

/-! ## Mnemonics -/

theorem opcodeOf_congr (t u : Text) (h : t.map Char.toUpper = u.map Char.toUpper) :
    opcodeOf t = opcodeOf u := by
  rw [opcodeOf, opcodeOf, upper, upper, h]

theorem opcodeOf_of_varDecl (line name : Text) (v : Int) (h : classify line = .varDecl name v) :
    opcodeOf name = none := by
  cases (classified_iff line _).2 h with
  | varDecl tok rest v ht hc hl hd =>
    obtain ⟨-, hop, -⟩ := hd
    exact hop

/-- Settles O54: the table by computation, the rest from R60's declaration test. -/
theorem mnemonicsAreCaseInsensitiveAndReserved :
    Obligations.MnemonicsAreCaseInsensitiveAndReserved :=
  ⟨rfl, by decide, by decide, opcodeOf_congr, by decide, opcodeOf_of_varDecl⟩

/-! ## Concrete forms -/

/-- The line does not begin with a blank or a slash, so it is no comment. -/
abbrev StartsPlain (line : Text) : Prop := ∃ c, line.head? = some c ∧ ¬ IsBlank c ∧ c ≠ '/'

/-- The line does not end with a blank or a colon, so it defines no label. -/
abbrev EndsPlain (line : Text) : Prop := ∃ c, line.getLast? = some c ∧ ¬ IsBlank c ∧ c ≠ ':'

theorem StartsPlain.append (x y : Text) (h : StartsPlain x) : StartsPlain (x ++ y) := by
  obtain ⟨c, hc, hplain⟩ := h
  exact ⟨c, by rw [List.head?_append, hc, Option.some_or], hplain⟩

theorem EndsPlain.append (x y : Text) (h : EndsPlain y) : EndsPlain (x ++ y) := by
  obtain ⟨c, hc, hplain⟩ := h
  exact ⟨c, by rw [List.getLast?_append, hc, Option.some_or], hplain⟩

theorem not_commentText_of_startsPlain (line : Text) (h : StartsPlain line) :
    ¬ CommentText line := by
  rintro ⟨rest, ⟨pre, post, hpre, -, rfl⟩, -⟩
  obtain ⟨c, hc, hblank, hslash⟩ := h
  cases pre with
  | nil => exact hslash (Option.some.inj hc).symm
  | cons p ps => exact hblank (Option.some.inj hc ▸ hpre p (by simp))

theorem not_labelText_of_endsPlain (line name : Text) (h : EndsPlain line) :
    ¬ LabelText line name := by
  rintro ⟨body, ⟨⟨pre, post, -, hpost, rfl⟩, -⟩, -⟩
  obtain ⟨c, hc, hblank, hcolon⟩ := h
  rw [List.getLast?_append] at hc
  cases hp : post.getLast? with
  | none =>
    rw [hp, Option.none_or, ← List.append_assoc, List.getLast?_concat] at hc
    exact hcolon (Option.some.inj hc).symm
  | some p =>
    rw [hp, Option.some_or] at hc
    exact hblank (Option.some.inj hc ▸ hpost p (List.mem_of_getLast? hp))

/-- None of the characters that have a meaning on a line of their own (R59, R60). -/
abbrev PlainChar (c : Char) : Prop := (¬ IsBlank c ∧ c ≠ '=') ∧ c ≠ '/' ∧ c ≠ ':'

/-- A non-empty text of plain characters, as names and numbers are. -/
abbrev PlainText (w : Text) : Prop := w ≠ [] ∧ ∀ c ∈ w, PlainChar c

theorem plainChar_of (c : Char)
    (h : c.isAlpha = true ∨ c.isDigit = true ∨ c ∈ ['_', '+', '-']) : PlainChar c := by
  refine ⟨⟨?_, ?_⟩, ?_, ?_⟩
  · rintro (rfl | rfl) <;> exact absurd h (by decide)
  all_goals
    rintro rfl
    exact absurd h (by decide)

theorem IdentifierText.plainText (t : Text) (h : IdentifierText t) : PlainText t := by
  obtain ⟨c, cs, rfl, hc, hcs⟩ := h
  refine ⟨by simp, List.forall_mem_cons.2 ⟨plainChar_of c ?_, fun d hd => plainChar_of d ?_⟩⟩
  · exact hc.imp_right fun hc => .inr (by simp [hc])
  · exact (hcs d hd).imp_right (Or.imp_right fun hd => by simp [hd])

theorem LiteralText.plainText (t : Text) (h : LiteralText t) : PlainText t :=
  ⟨h.1, fun c hc => plainChar_of c (.inr (.inl (List.all_eq_true.1 h.2 c hc)))⟩

theorem IntegerText.plainText (t : Text) (v : Int) (h : IntegerText t v) : PlainText t := by
  obtain ⟨ds, hds, hform⟩ := h
  obtain ⟨-, hplain⟩ := LiteralText.plainText ds hds
  rcases hform with ⟨rfl, -⟩ | ⟨rfl, -⟩ | ⟨rfl, -⟩
  · exact LiteralText.plainText t hds
  · exact ⟨by simp, List.forall_mem_cons.2 ⟨plainChar_of '+' (by decide), hplain⟩⟩
  · exact ⟨by simp, List.forall_mem_cons.2 ⟨plainChar_of '-' (by decide), hplain⟩⟩

theorem PlainText.wordText (w : Text) (h : PlainText w) : WordText w := fun c hc => (h.2 c hc).1

theorem PlainText.startsPlain (w : Text) (h : PlainText w) : StartsPlain w := by
  obtain ⟨hne, hplain⟩ := h
  obtain ⟨c, cs, rfl⟩ := List.exists_cons_of_ne_nil hne
  obtain ⟨⟨hblank, -⟩, hslash, -⟩ := hplain c (by simp)
  exact ⟨c, rfl, hblank, hslash⟩

theorem endsPlain_of_wordText (w : Text) (hne : w ≠ []) (hw : WordText w)
    (hlast : w.getLast? ≠ some ':') : EndsPlain w := by
  have hc : w.getLast? = some (w.getLast hne) := List.getLast?_eq_some_getLast hne
  exact ⟨_, hc, (hw _ (List.getLast_mem hne)).1, fun h => hlast (h ▸ hc)⟩

theorem PlainText.endsPlain (w : Text) (h : PlainText w) : EndsPlain w := by
  have hw := PlainText.wordText w h
  obtain ⟨hne, hplain⟩ := h
  refine endsPlain_of_wordText w hne hw fun hlast => ?_
  obtain ⟨-, -, hcolon⟩ := hplain ':' (List.mem_of_getLast? hlast)
  exact hcolon rfl

theorem tokens_of_wordText (w : Text) (hne : w ≠ []) (hw : WordText w) : tokens w = [w] := by
  simpa using tokens_word w [] hne hw endsWord_nil

/-- Two words with blanks between them are two tokens. -/
theorem tokens_two_words (x gap t : Text) (hx : PlainText x) (hgap : AllBlank gap) (hg : gap ≠ [])
    (hne : t ≠ []) (ht : WordText t) : tokens (x ++ gap ++ t) = [x, t] := by
  have hend : EndsWord (gap ++ t) :=
    endsWord_append gap t (endsWord_of_allBlank gap hgap) fun h => absurd h hg
  rw [List.append_assoc, tokens_word x _ hx.1 (PlainText.wordText x hx) hend,
    tokens_blanks_append gap t hgap, tokens_of_wordText t hne ht]

/-- `=` between two words is a token, with any blanks or none around it. -/
theorem tokens_equals_between (x gap gap' t : Text) (hx : PlainText x) (hgap : AllBlank gap)
    (hgap' : AllBlank gap') (ht : PlainText t) :
    tokens (x ++ gap ++ ['='] ++ gap' ++ t) = [x, ['='], t] := by
  have hend : EndsWord (gap ++ '=' :: (gap' ++ t)) :=
    endsWord_append gap _ (endsWord_of_allBlank gap hgap) fun _ => by simp [EndsWord]
  have hline : x ++ gap ++ ['='] ++ gap' ++ t = x ++ (gap ++ '=' :: (gap' ++ t)) := by simp
  rw [hline, tokens_word x _ hx.1 (PlainText.wordText x hx) hend,
    tokens_blanks_append gap _ hgap, tokens_equals, tokens_blanks_append gap' t hgap',
    tokens_of_wordText t ht.1 (PlainText.wordText t ht)]

/-- `//` after blanks is a comment, whatever follows. -/
theorem commentText_of_slashes (pre rest : Text) (hpre : AllBlank pre) :
    CommentText (pre ++ '/' :: '/' :: rest) := by
  obtain ⟨post, hpost, hsplit, hlast⟩ := dropWhile_split rest.reverse
  generalize rest.reverse.dropWhile isSeparator = back at hsplit hlast
  have hrest : rest = back.reverse ++ post.reverse := by
    rw [← List.reverse_append, ← hsplit, List.reverse_reverse]
  refine ⟨back.reverse, ⟨pre, post.reverse, hpre, fun c hc => hpost c (List.mem_reverse.1 hc), ?_⟩,
    fun c hc => ?_, fun c hc => ?_⟩
  · simp [hrest]
  · obtain rfl : '/' = c := Option.some.inj hc
    decide
  · cases back with
    | nil =>
      obtain rfl : '/' = c := Option.some.inj hc
      decide
    | cons b bs =>
      rw [List.reverse_cons, ← List.cons_append, ← List.cons_append, List.getLast?_concat] at hc
      exact hlast c hc

/-- An identifier, blanks and a colon: the trimmed line ends in the colon and the text before it trims
to the identifier. -/
theorem labelText_of_identifier (name gap : Text) (hname : IdentifierText name)
    (hgap : AllBlank gap) : LabelText (name ++ gap ++ [':']) name := by
  have hplain := IdentifierText.plainText name hname
  have hhead : ∀ y c, (name ++ y).head? = some c → ¬ IsBlank c := by
    intro y c hc
    obtain ⟨d, hd, hblank, -⟩ := (PlainText.startsPlain name hplain).append name y
    exact Option.some.inj (hd.symm.trans hc) ▸ hblank
  refine ⟨name ++ gap, ⟨⟨[], [], allBlank_nil, allBlank_nil, by simp⟩, ?_, ?_⟩,
    ⟨[], gap, allBlank_nil, hgap, rfl⟩, ?_, ?_⟩
  · rw [List.append_assoc]
    exact hhead _
  · intro c hc
    rw [List.getLast?_concat] at hc
    obtain rfl : ':' = c := Option.some.inj hc
    decide
  · simpa using hhead []
  · intro c hc
    obtain ⟨⟨hblank, -⟩, -⟩ := hplain.2 c (List.mem_of_getLast? hc)
    exact hblank

theorem classify_labelDefinition (name gap : Text) (hname : IdentifierText name)
    (hgap : AllBlank gap) : classify (name ++ gap ++ [':']) = .labelDef name := by
  have hstart := PlainText.startsPlain name (IdentifierText.plainText name hname)
  exact classify_of_label _ name
    (not_commentText_of_startsPlain _ ((hstart.append name gap).append _ [':']))
    (labelText_of_identifier name gap hname hgap)

/-- The three surface forms of a declaration (R60 step 4). -/
theorem classify_declarationForms (x t gap gap' : Text) (v : Int) (hx : IdentifierText x)
    (hop : opcodeOf x = none) (ht : IntegerText t v) (hgap : AllBlank gap)
    (hgap' : AllBlank gap') :
    classify x = .varDecl x 0 ∧
    (gap ≠ [] → classify (x ++ gap ++ t) = .varDecl x v) ∧
    classify (x ++ gap ++ ['='] ++ gap' ++ t) = .varDecl x v := by
  have hpx := IdentifierText.plainText x hx
  have hpt := IntegerText.plainText t v ht
  have hstart := PlainText.startsPlain x hpx
  have hend := PlainText.endsPlain t hpt
  have hwt := PlainText.wordText t hpt
  refine ⟨?_, fun hg => ?_, ?_⟩
  · exact classify_of_declaration x x [] 0 (not_commentText_of_startsPlain x hstart)
      (fun name => not_labelText_of_endsPlain x name (PlainText.endsPlain x hpx))
      (tokens_of_wordText x hpx.1 (PlainText.wordText x hpx)) ⟨hx, hop, .inl ⟨rfl, rfl⟩⟩
  · exact classify_of_declaration _ x [t] v
      (not_commentText_of_startsPlain _ ((hstart.append x gap).append _ t))
      (fun name => not_labelText_of_endsPlain _ name (hend.append _ t))
      (tokens_two_words x gap t hpx hgap hg hpt.1 hwt) ⟨hx, hop, .inr ⟨t, .inl rfl, ht⟩⟩
  · have hline := (((hstart.append x gap).append _ ['=']).append _ gap').append _ t
    exact classify_of_declaration _ x [['='], t] v (not_commentText_of_startsPlain _ hline)
      (fun name => not_labelText_of_endsPlain _ name (hend.append _ t))
      (tokens_equals_between x gap gap' t hpx hgap hgap' hpt) ⟨hx, hop, .inr ⟨t, .inr rfl, ht⟩⟩

/-- A mnemonic alone or with one operand token (R60 step 5). -/
theorem classify_instructionForms (x gap : Text) (hop : opcodeOf x ≠ none) (hx : IdentifierText x)
    (hgap : AllBlank gap) :
    classify x = .instr x [] ∧
    ∀ t : Text, t ≠ [] → gap ≠ [] → WordText t → t.getLast? ≠ some ':' →
      classify (x ++ gap ++ t) = .instr x [t] := by
  have hpx := IdentifierText.plainText x hx
  have hstart := PlainText.startsPlain x hpx
  have hreserved : ∀ rest v, ¬ DeclarationTokens x rest v := fun _ _ ⟨_, hnone, _⟩ => hop hnone
  refine ⟨?_, fun t hne hg ht hlast => ?_⟩
  · exact classify_of_no_declaration x x [] (not_commentText_of_startsPlain x hstart)
      (fun name => not_labelText_of_endsPlain x name (PlainText.endsPlain x hpx))
      (tokens_of_wordText x hpx.1 (PlainText.wordText x hpx)) (hreserved [])
  · have hend := endsPlain_of_wordText t hne ht hlast
    exact classify_of_no_declaration _ x [t]
      (not_commentText_of_startsPlain _ ((hstart.append x gap).append _ t))
      (fun name => not_labelText_of_endsPlain _ name (hend.append _ t))
      (tokens_two_words x gap t hpx hgap hg hne ht) (hreserved [t])

/-- Settles O58, clause by clause. -/
theorem linesGetTheClassOfTheGrammar : Obligations.LinesGetTheClassOfTheGrammar :=
  ⟨classified_iff, tokenized_iff, classify_of_allBlank,
    fun pre rest hpre => classify_of_comment _ (commentText_of_slashes pre rest hpre),
    classify_labelDefinition, classify_declarationForms, classify_instructionForms⟩

end Sys2Proof.Machine

/-! The loader (R84): where an image's words stand in memory, what a load refuses, and the two ends of
an assembly (R85, R86). -/

namespace Sys2Proof.Machine

/-! ## The loader -/

theorem loadImage_of_fits (img : Image) (s : State)
    (h : img.origin + img.words.length ≤ s.cfg.cap) :
    loadImage img s = .ok (resetTo img.origin { s with mem := imageMemory s.cfg.fill img }) :=
  if_pos h

theorem loadImage_of_too_large (img : Image) (s : State)
    (h : s.cfg.cap < img.origin + img.words.length) : loadImage img s = .error .imageTooLarge :=
  if_neg (Nat.not_le.2 h)

/-- The instruction words are written after the data words, and above them (R84). -/
theorem imageMemory_read_data (fill : Option Cell) (img : Image) (i : Nat) (w : Int)
    (hd : img.data.length ≤ img.origin) (hi : img.data[i]? = some w) :
    (imageMemory fill img).read fill i = some (.numeric w) := by
  obtain ⟨hlt, -⟩ := List.getElem?_eq_some_iff.1 hi
  have hat := Memory.read_writeWords_at fill img.data [] 0 i w hi
  rw [Nat.zero_add] at hat
  rw [imageMemory, Memory.read_writeWords_below _ _ _ _ _ (by omega), hat]

theorem imageMemory_read_words (fill : Option Cell) (img : Image) (j : Nat) (w : Int)
    (hj : img.words[j]? = some w) :
    (imageMemory fill img).read fill (img.origin + j) = some (.numeric w) :=
  Memory.read_writeWords_at fill img.words _ img.origin j w hj

theorem imageMemory_read_above (fill : Option Cell) (img : Image) (a : Nat)
    (hd : img.data.length ≤ img.origin) (ha : img.origin + img.words.length ≤ a) :
    (imageMemory fill img).read fill a = fill := by
  rw [imageMemory, Memory.read_writeWords_above _ _ _ _ _ ha,
    Memory.read_writeWords_above _ _ _ _ _ (by omega), Memory.read_nil]

/-- Settles O47: the cells of the loaded state are those of the image's memory. -/
theorem loaderLaysOutTheImage : Obligations.LoaderLaysOutTheImage := by
  intro img s hdata
  have hle : img.data.length ≤ img.origin := Nat.le_of_eq hdata
  refine ⟨fun hfits => ⟨_, loadImage_of_fits img s hfits, ?_, ?_, ?_, rfl⟩,
    loadImage_of_too_large img s⟩
  · exact fun i w => imageMemory_read_data s.cfg.fill img i w hle
  · exact fun j w => imageMemory_read_words s.cfg.fill img j w
  · exact fun a => imageMemory_read_above s.cfg.fill img a hle

/-! ## The two ends of an assembly -/

/-- Settles O49: an assembly that is no image is a failed scan's state, and `boot` needs an image. -/
theorem assemblyEndsInAnImageOrAFailure : Obligations.AssemblyEndsInAnImageOrAFailure :=
  ⟨fun lines => assembleClasses_image_or_failed (lines.map classify),
    fun s r hr => by rw [boot, hr]⟩

end Sys2Proof.Machine

/-! Scan 2 on one instruction line (R75 to R81): what an operand resolves to, and the branches of
`encodeLine`, each with its condition. -/

namespace Sys2Proof.Machine

/-! ## Operand resolution -/

theorem resolve_eq_operandValue (st : AsmState) (t : Text) :
    resolve st t = operandValue st.labels st.vars t := by
  unfold resolve operandValue
  by_cases ht : LiteralText t
  · rw [parseLiteral_of t ht, if_pos ht]
  · rw [parseLiteral_eq_none t ht, if_neg ht]
    cases st.labels.lookup t <;> rfl

theorem operandValue_of_literal (labels : List (Text × Nat)) (vars : List VarEntry) (t : Text)
    (h : LiteralText t) : operandValue labels vars t = some (decimalValue t) := if_pos h

theorem operandValue_of_label (labels : List (Text × Nat)) (vars : List VarEntry) (t : Text)
    (a : Nat) (h : ¬ LiteralText t) (ha : labels.lookup t = some a) :
    operandValue labels vars t = some a := by
  rw [operandValue, if_neg h, ha, Option.some_or]

theorem operandValue_of_unlabelled (labels : List (Text × Nat)) (vars : List VarEntry) (t : Text)
    (h : ¬ LiteralText t) (hl : labels.lookup t = none) :
    operandValue labels vars t =
      (vars.find? fun v => decide (v.name = t)).map VarEntry.address := by
  rw [operandValue, if_neg h, hl, Option.none_or]

/-- Where names are unique, a name finds its own entry. -/
theorem find?_name_of_mem (vars : List VarEntry) (v : VarEntry) (hv : v ∈ vars)
    (hnodup : (vars.map VarEntry.name).Nodup) :
    (vars.find? fun u => decide (u.name = v.name)) = some v := by
  obtain ⟨u, hu⟩ : ∃ u, (vars.find? fun u => decide (u.name = v.name)) = some u :=
    Option.isSome_iff_exists.1 (List.find?_isSome.2 ⟨v, hv, decide_eq_true rfl⟩)
  have hname : u.name = v.name := of_decide_eq_true (List.find?_some hu :)
  rw [hu, List.inj_on_of_nodup_map hnodup (List.mem_of_find?_eq_some hu) hv hname]

theorem find?_name_eq_none_iff (vars : List VarEntry) (name : Text) :
    (vars.find? fun v => decide (v.name = name)) = none ↔ name ∉ vars.map VarEntry.name := by
  simp

/-! ## Encoding -/

theorem encodeLine_unknown (m : Text) (ts : List Text) (st : AsmState) (h : opcodeOf m = none) :
    encodeLine m ts st = .error (st.fail (.unknownMnemonic m)) := by
  rw [encodeLine, h]

theorem encodeLine_of_two_operands (m : Text) (ts : List Text) (st : AsmState) (op : Nat)
    (hop : opcodeOf m = some op) (h : 1 < ts.length) :
    encodeLine m ts st = .error (st.fail .malformedLine) := by
  rw [encodeLine, hop]
  exact if_pos h

/-- HALT bears no operand and ignores the one it may have (R77). -/
theorem encodeLine_halt (m : Text) (ts : List Text) (st : AsmState) (hop : opcodeOf m = some 43)
    (h : ts.length ≤ 1) : encodeLine m ts st = .ok (st.emitWord 43 0) := by
  rw [encodeLine, hop]
  exact if_neg (Nat.not_lt.2 h)

theorem bearsOperand_of_ne (op : Nat) (h : op ≠ 43) : bearsOperand op = true := decide_eq_true h

theorem encodeLine_missing (m : Text) (st : AsmState) (op : Nat) (hop : opcodeOf m = some op)
    (h : op ≠ 43) : encodeLine m [] st = .error (st.fail .missingOperand) := by
  rw [encodeLine, hop]
  exact if_pos (bearsOperand_of_ne op h)

theorem encodeLine_operand (m t : Text) (st : AsmState) (op : Nat) (hop : opcodeOf m = some op)
    (h : op ≠ 43) : encodeLine m [t] st = encodeOperand op t st := by
  rw [encodeLine, hop]
  exact if_pos (bearsOperand_of_ne op h)

theorem encodeOperand_of_le (op k : Nat) (t : Text) (st : AsmState) (hr : resolve st t = some k)
    (hk : k ≤ 99) : encodeOperand op t st = .ok (st.emitWord op k) := by
  rw [encodeOperand, hr]
  exact if_pos hk

theorem encodeOperand_of_gt (op k : Nat) (t : Text) (st : AsmState) (hr : resolve st t = some k)
    (hk : 99 < k) : encodeOperand op t st = .error (st.fail (.operandOverflow t k)) := by
  rw [encodeOperand, hr]
  exact if_neg (Nat.not_le.2 hk)

theorem encodeOperand_undefined (op : Nat) (t : Text) (st : AsmState) (hr : resolve st t = none) :
    encodeOperand op t st = .ok ((st.warnUndefined t).emitWord op 0) := by
  rw [encodeOperand, hr]

theorem encodeWord_eq (op k : Nat) : encodeWord op k = (op : Int) * 100 + (k : Int) := by
  simp [encodeWord]

/-- An emitted word stands at the end of the word list (R75, R80). -/
theorem emitWord_eq (op k : Nat) (st : AsmState) : st.emitWord op k =
    { st with words := st.words ++ [(op : Int) * 100 + (k : Int)], nextWord := st.nextWord + 1 } := by
  rw [AsmState.emitWord, encodeWord_eq]

/-- Settles O53, branch by branch of `encodeLine`, `encodeOperand` and `operandValue`. -/
theorem instructionLinesResolveAndEncodeInOrder :
    Obligations.InstructionLinesResolveAndEncodeInOrder := by
  intro m t st
  have hres := resolve_eq_operandValue st t
  refine ⟨fun ts => rfl, fun hop ts => encodeLine_unknown m ts st hop, fun op hop =>
    ⟨fun ts => encodeLine_of_two_operands m ts st op hop, ?_, fun h43 => ⟨?_, ?_, ?_, ?_⟩⟩, hres,
    fun hl => hres.trans (operandValue_of_literal _ _ t hl),
    fun hl a ha => hres.trans (operandValue_of_label _ _ t a hl ha), ?_, ?_⟩
  · rintro rfl ts (rfl | rfl)
    · exact encodeLine_halt m [] st hop (Nat.zero_le 1)
    · exact encodeLine_halt m [t] st hop (Nat.le_refl 1)
  · exact encodeLine_missing m st op hop h43
  · intro k hr hk
    rw [encodeLine_operand m t st op hop h43, encodeOperand_of_le op k t st hr hk, emitWord_eq]
  · intro k hr hk
    rw [encodeLine_operand m t st op hop h43]
    exact encodeOperand_of_gt op k t st hr hk
  · intro hr
    rw [encodeLine_operand m t st op hop h43, encodeOperand_undefined op t st hr, emitWord_eq]
    simp [AsmState.warnUndefined]
  · rintro hl hlab v hv rfl hnodup
    rw [hres, operandValue_of_unlabelled _ _ _ hl hlab, find?_name_of_mem st.vars v hv hnodup,
      Option.map_some]
  · intro hl hlab hnone
    have hfind := (find?_name_eq_none_iff st.vars t).2 (by simpa using hnone)
    rw [hres, operandValue_of_unlabelled _ _ _ hl hlab, hfind, Option.map_none]

end Sys2Proof.Machine

/-! Scans 1A and 1B (R71 to R73): the data-address allocator over the declarations, and the label table
over the lines before each label. -/

namespace Sys2Proof.Machine

/-! ## Scans, line by line -/

/-- What holds of the lines done and the state reached, kept by every further line, holds of all lines
and the state a completed scan ends in. -/
theorem scanLines_induction (f : AsmState → LineClass → Except AsmState AsmState)
    (P : List LineClass → AsmState → Prop)
    (hf : ∀ done st l st', P done st → f st l = .ok st' → P (done ++ [l]) st')
    (done ls : List LineClass) (st st' : AsmState) (h0 : P done st)
    (h : scanLines f ls st = .ok st') : P (done ++ ls) st' := by
  induction ls generalizing done st with
  | nil => cases h; rwa [List.append_nil]
  | cons l ls ih =>
    rw [scanLines] at h
    split at h
    case h_1 st1 h1 =>
      rw [List.append_cons]
      exact ih (done ++ [l]) st1 (hf done st l st1 h0 h1) h
    case h_2 => cases h

/-! ## The data-address allocator -/

/-- R71 and R72: the symbol table `st` holds the distinct names of the declarations `ds`, in the order
of their first declarations, with the addresses from 0 on and the first declared values. -/
structure Allocated (ds : List (Text × Int)) (st : AsmState) : Prop where
  nextData_eq : st.nextData = st.vars.length
  addresses : st.vars.map VarEntry.address = List.range st.vars.length
  names : ∀ name, name ∈ st.vars.map VarEntry.name ↔ name ∈ ds.map Prod.fst
  values : ∀ v ∈ st.vars, ds.lookup v.name = some v.value
  order : st.vars.Pairwise fun u v =>
    (ds.map Prod.fst).idxOf u.name < (ds.map Prod.fst).idxOf v.name

theorem allocated_enterScan1A : Allocated [] enterScan1A where
  nextData_eq := rfl
  addresses := rfl
  names _ := Iff.rfl
  values _ hv := absurd hv List.not_mem_nil
  order := List.Pairwise.nil

theorem lookupVar_eq_none_iff (st : AsmState) (name : Text) :
    st.lookupVar name = none ↔ name ∉ st.vars.map VarEntry.name :=
  find?_name_eq_none_iff st.vars name

@[simp] theorem AsmState.declare_vars (name : Text) (value : Int) (st : AsmState) :
    (st.declare name value).vars =
      st.vars ++ [{ name := name, address := st.nextData, value := value }] := rfl

@[simp] theorem AsmState.declare_nextData (name : Text) (value : Int) (st : AsmState) :
    (st.declare name value).nextData = st.nextData + 1 := rfl

theorem Allocated.name_mem {ds : List (Text × Int)} {st : AsmState} (h : Allocated ds st)
    {v : VarEntry} (hv : v ∈ st.vars) : v.name ∈ ds.map Prod.fst :=
  (h.names v.name).1 (List.mem_map_of_mem hv)

/-- A further declaration leaves the first values and the order of the names that are there. -/
theorem Allocated.values_concat {ds : List (Text × Int)} {st : AsmState} (h : Allocated ds st)
    (d : Text × Int) : ∀ v ∈ st.vars, (ds ++ [d]).lookup v.name = some v.value := by
  intro v hv
  rw [List.lookup_append, h.values v hv, Option.some_or]

theorem Allocated.order_concat {ds : List (Text × Int)} {st : AsmState} (h : Allocated ds st)
    (d : Text × Int) : st.vars.Pairwise fun u v =>
      ((ds ++ [d]).map Prod.fst).idxOf u.name < ((ds ++ [d]).map Prod.fst).idxOf v.name := by
  refine h.order.imp_of_mem fun hu hv hlt => ?_
  rwa [List.map_append, List.idxOf_append_of_mem (h.name_mem hu),
    List.idxOf_append_of_mem (h.name_mem hv)]

/-- A re-declaration is ignored (R71). -/
theorem Allocated.redeclare {ds : List (Text × Int)} {st : AsmState} (h : Allocated ds st)
    (name : Text) (value : Int) (hdecl : (st.lookupVar name).isSome) :
    Allocated (ds ++ [(name, value)]) st where
  nextData_eq := h.nextData_eq
  addresses := h.addresses
  names n := by
    have hmem : name ∈ ds.map Prod.fst := by
      rw [← h.names, ← not_not (a := name ∈ _), ← lookupVar_eq_none_iff]
      exact Option.isSome_iff_ne_none.1 hdecl
    rw [h.names, List.map_append, List.mem_append, List.map_singleton, List.mem_singleton]
    exact ⟨.inl, fun hn => hn.elim id fun he => he ▸ hmem⟩
  values := h.values_concat (name, value)
  order := h.order_concat (name, value)

/-- A first declaration gets the next address (R71). -/
theorem Allocated.declare {ds : List (Text × Int)} {st : AsmState} (h : Allocated ds st)
    (name : Text) (value : Int) (hnew : st.lookupVar name = none) :
    Allocated (ds ++ [(name, value)]) (st.declare name value) := by
  have hfresh : name ∉ ds.map Prod.fst := by
    rwa [← h.names, ← lookupVar_eq_none_iff]
  refine ⟨?_, ?_, fun n => ?_, fun v hv => ?_, ?_⟩
  · simp [h.nextData_eq]
  · simp [h.addresses, h.nextData_eq, List.range_succ]
  · simp [← h.names n]
  · rcases List.mem_append.1 hv with hv | hv
    · exact h.values_concat (name, value) v hv
    · obtain rfl := List.mem_singleton.1 hv
      have hnone : ds.lookup name = none := List.lookup_eq_none_iff.2 fun d hd => by
        simpa using fun he : name = d.1 => hfresh (he ▸ List.mem_map_of_mem hd)
      rw [List.lookup_append, hnone, Option.none_or]
      exact List.lookup_cons_self
  · refine List.pairwise_append.2 ⟨h.order_concat (name, value), List.pairwise_singleton _ _,
      fun u hu v hv => ?_⟩
    obtain rfl := List.mem_singleton.1 hv
    rw [List.map_append, List.idxOf_append_of_mem (h.name_mem hu), List.idxOf_append_of_notMem hfresh]
    exact Nat.lt_add_right _ (List.idxOf_lt_length_iff.2 (h.name_mem hu))

theorem declarations_concat (ls : List LineClass) (l : LineClass) :
    declarations (ls ++ [l]) = declarations ls ++ declarations [l] :=
  List.filterMap_append

theorem declareLine_allocated (done : List LineClass) (st : AsmState) (l : LineClass)
    (st' : AsmState) (h : Allocated (declarations done) st) (hl : declareLine st l = .ok st') :
    Allocated (declarations (done ++ [l])) st' := by
  rw [declarations_concat]
  rcases declareLine_ok st st' l hl with ⟨rfl, hdecl⟩ | ⟨name, value, rfl, hnew, -, rfl⟩
  · cases l with
    | varDecl name value => exact h.redeclare name value (hdecl name value rfl)
    | _ => simpa [declarations] using h
  · exact h.declare name value hnew

theorem scan1A_allocated (ls : List LineClass) (a : AsmState)
    (h : scanLines declareLine ls enterScan1A = .ok a) : Allocated (declarations ls) a :=
  scanLines_induction declareLine (fun done st => Allocated (declarations done) st)
    declareLine_allocated [] ls enterScan1A a allocated_enterScan1A h

theorem Allocated.nodup {ds : List (Text × Int)} {st : AsmState} (h : Allocated ds st) :
    (st.vars.map VarEntry.name).Nodup :=
  List.pairwise_map.2 (h.order.imp fun hlt heq => by rw [heq] at hlt; exact Nat.lt_irrefl _ hlt)

theorem Allocated.address_of_getElem? {ds : List (Text × Int)} {st : AsmState}
    (h : Allocated ds st) (i : Nat) (v : VarEntry) (hi : st.vars[i]? = some v) : v.address = i := by
  have hlt : i < st.vars.length := (List.getElem?_eq_some_iff.1 hi).1
  have hmap : (st.vars.map VarEntry.address)[i]? = some v.address := by
    rw [List.getElem?_map, hi, Option.map_some]
  rw [h.addresses, List.getElem?_range hlt] at hmap
  exact (Option.some.inj hmap).symm

/-- An image has the symbol table of scan 1A. -/
theorem image_allocated (ls : List LineClass) (img : Image)
    (h : (assembleClasses ls).phase = .image img) :
    ∃ a, Allocated (declarations ls) a ∧ img.vars = a.vars ∧ img.origin = a.nextData ∧
      img.data = img.vars.map VarEntry.value := by
  obtain ⟨a, b, c, ha, hb, hc, -, rfl⟩ := assembleClasses_image ls img h
  obtain ⟨hvb, hnb, -, -⟩ := scan1B_frame ls a b hb
  obtain ⟨hvc, -, hnc, -⟩ := scan2_frame ls b c hc
  exact ⟨a, scan1A_allocated ls a ha, hvc.trans hvb, hnc.trans hnb, rfl⟩

/-- Settles O50: the image's variables are those scan 1A allocated. -/
theorem variablesGetAddressesInFirstDeclarationOrder :
    Obligations.VariablesGetAddressesInFirstDeclarationOrder := by
  intro lines img himg
  obtain ⟨a, ha, hvars, horigin, hdata⟩ := image_allocated _ img himg
  refine ⟨?_, hdata, ?_⟩
  · rw [horigin, hvars, ha.nextData_eq]
  rw [hvars]
  refine ⟨ha.nodup, ha.names, fun i v hi => ⟨ha.address_of_getElem? i v hi, ?_⟩,
    fun i j u v hij hi hj => ?_⟩
  · exact ha.values v (List.mem_of_getElem? hi)
  · obtain ⟨hi', rfl⟩ := List.getElem?_eq_some_iff.1 hi
    obtain ⟨hj', rfl⟩ := List.getElem?_eq_some_iff.1 hj
    exact List.pairwise_iff_getElem.1 ha.order i j hi' hj' hij

/-! ## The label table -/

/-- The instruction lines among `ls`. -/
abbrev instrCount (ls : List LineClass) : Nat := (ls.filter isInstrLine).length

theorem instrCount_concat (ls : List LineClass) (l : LineClass) :
    instrCount (ls ++ [l]) = instrCount ls + if isInstrLine l then 1 else 0 := by
  rw [instrCount, List.filter_append, List.length_append, List.filter_singleton]
  cases isInstrLine l <;> rfl

/-- R73: the last label line of `name` in `ls` stands before the instruction at `a`, counted from
`n`. -/
abbrev LabelAt (n : Nat) (ls : List LineClass) (name : Text) (a : Nat) : Prop :=
  ∃ before after, ls = before ++ .labelDef name :: after ∧ .labelDef name ∉ after ∧
    a = n + instrCount before

theorem not_labelAt_nil (n : Nat) (name : Text) (a : Nat) : ¬ LabelAt n [] name a := by
  rintro ⟨before, after, he, -⟩
  simp at he

/-- A further label line of the name is now its last. -/
theorem labelAt_concat_same (n : Nat) (ls : List LineClass) (name : Text) (a : Nat) :
    LabelAt n (ls ++ [.labelDef name]) name a ↔ a = n + instrCount ls := by
  constructor
  · rintro ⟨before, after, he, hlast, rfl⟩
    rcases List.eq_nil_or_concat after with rfl | ⟨init, l, rfl⟩
    · rw [(List.append_inj' he rfl).1]
    · rw [List.concat_eq_append, ← List.cons_append, ← List.append_assoc] at he
      obtain rfl := List.singleton_inj.1 (List.append_inj' he rfl).2
      simp at hlast
  · rintro rfl
    exact ⟨ls, [], rfl, List.not_mem_nil, rfl⟩

/-- Any other further line leaves the last label line of the name. -/
theorem labelAt_concat_other (n : Nat) (ls : List LineClass) (l : LineClass) (name : Text) (a : Nat)
    (hl : l ≠ .labelDef name) : LabelAt n (ls ++ [l]) name a ↔ LabelAt n ls name a := by
  constructor
  · rintro ⟨before, after, he, hlast, rfl⟩
    rcases List.eq_nil_or_concat after with rfl | ⟨init, l', rfl⟩
    · exact absurd (List.singleton_inj.1 (List.append_inj' he rfl).2) hl
    · rw [List.concat_eq_append] at hlast
      rw [List.concat_eq_append, ← List.cons_append, ← List.append_assoc] at he
      exact ⟨before, init, (List.append_inj' he rfl).1,
        fun hm => hlast (List.mem_append_left _ hm), rfl⟩
  · rintro ⟨before, after, rfl, hlast, rfl⟩
    refine ⟨before, after ++ [l], by simp, fun hm => ?_, rfl⟩
    rcases List.mem_append.1 hm with hm | hm
    · exact hlast hm
    · exact hl (List.mem_singleton.1 hm).symm

theorem lookup_cons_eq_ite (n : Text) (e : Text × Nat) (rest : List (Text × Nat)) :
    (e :: rest).lookup n = if n = e.1 then some e.2 else rest.lookup n := by
  rw [List.lookup_cons]
  by_cases h : n = e.1
  · rw [if_pos h, beq_iff_eq.2 h]
  · rw [if_neg h, beq_false_of_ne h]

/-- Binding a name changes its own address only (R73, R18). -/
theorem lookup_bindLabel (name n : Text) (address : Nat) (labels : List (Text × Nat)) :
    (bindLabel name address labels).lookup n =
      if n = name then some address else labels.lookup n := by
  induction labels with
  | nil => exact lookup_cons_eq_ite n (name, address) []
  | cons e rest ih =>
    rw [bindLabel, lookup_cons_eq_ite n e rest]
    by_cases he : e.1 = name
    · rw [if_pos he, lookup_cons_eq_ite, he]
      by_cases hn : n = name
      · rw [if_pos hn, if_pos hn]
      · rw [if_neg hn, if_neg hn, if_neg hn]
    · rw [if_neg he, lookup_cons_eq_ite, ih]
      by_cases hn : n = e.1
      · rw [if_pos hn, if_pos hn, if_neg (hn ▸ he)]
      · rw [if_neg hn, if_neg hn]

theorem isInstrLine_of_not_code (l : LineClass) (h : isCodeLine l = false) :
    isInstrLine l = false := by
  cases l with
  | instr m ts => cases h
  | _ => rfl

/-- Scan 1B after the lines `done`, the origin being `n` (R73). -/
structure Labelled (n : Nat) (done : List LineClass) (st : AsmState) : Prop where
  nextInstr_eq : st.nextInstr = n + instrCount done
  lookup_iff : ∀ name a, st.labels.lookup name = some a ↔ LabelAt n done name a

theorem labelLine_labelled (n : Nat) (done : List LineClass) (st : AsmState) (l : LineClass)
    (st' : AsmState) (h : Labelled n done st) (hl : labelLine st l = .ok st') :
    Labelled n (done ++ [l]) st' := by
  have hother : (∀ name, l ≠ .labelDef name) → ∀ name a,
      st.labels.lookup name = some a ↔ LabelAt n (done ++ [l]) name a := fun hne name a =>
    (h.lookup_iff name a).trans (labelAt_concat_other n done l name a (hne name)).symm
  rcases labelLine_ok st st' l hl with ⟨rfl, hcode⟩ | ⟨name, rfl, rfl⟩ | ⟨m, ts, rfl, rfl⟩
  · have hinstr := isInstrLine_of_not_code l hcode
    refine ⟨?_, hother fun name he => by rw [he] at hcode; cases hcode⟩
    rw [instrCount_concat, hinstr, h.nextInstr_eq]
    rfl
  · refine ⟨?_, fun name' a => ?_⟩
    · rw [instrCount_concat, h.nextInstr_eq]
      rfl
    · rw [lookup_bindLabel, h.nextInstr_eq]
      by_cases hn : name' = name
      · subst hn
        rw [if_pos rfl, labelAt_concat_same, Option.some.injEq]
        exact eq_comm
      · rw [if_neg hn, h.lookup_iff, labelAt_concat_other]
        exact fun he => hn (LineClass.labelDef.inj he).symm
  · refine ⟨?_, hother fun name he => by cases he⟩
    rw [instrCount_concat, h.nextInstr_eq]
    rfl

theorem scan1B_labelled (ls : List LineClass) (a b : AsmState) (ha : a.labels = [])
    (h : scanLines labelLine ls a.enterScan1B = .ok b) : Labelled a.nextData ls b := by
  refine scanLines_induction labelLine (Labelled a.nextData) (labelLine_labelled a.nextData) [] ls
    a.enterScan1B b ⟨rfl, fun name address => ?_⟩ h
  rw [show a.enterScan1B.labels = [] from ha]
  exact ⟨fun hnone => (nomatch hnone), fun hl => absurd hl (not_labelAt_nil _ _ _)⟩

/-- An image has the label table of scan 1B, and the instruction counter stands past the last
instruction. -/
theorem image_labelled (ls : List LineClass) (img : Image)
    (h : (assembleClasses ls).phase = .image img) :
    (∀ name a, img.labels.lookup name = some a ↔ LabelAt img.origin ls name a) ∧
      (assembleClasses ls).nextInstr = img.origin + instrCount ls := by
  obtain ⟨a, b, c, ha, hb, hc, he, rfl⟩ := assembleClasses_image ls img h
  obtain ⟨hla, -, -⟩ := scan1A_frame ls a ha
  obtain ⟨-, hnb, -, -⟩ := scan1B_frame ls a b hb
  obtain ⟨-, hlc, hnc, hic⟩ := scan2_frame ls b c hc
  have horigin : c.toImage.origin = a.nextData := hnc.trans hnb
  have hlab := scan1B_labelled ls a b hla hb
  rw [horigin, he]
  refine ⟨fun name address => ?_, hic.trans hlab.nextInstr_eq⟩
  rw [show c.toImage.labels = b.labels from hlc]
  exact hlab.lookup_iff name address

/-- Settles O51: scan 1B's table. -/
theorem labelsBindToTheNextInstruction : Obligations.LabelsBindToTheNextInstruction :=
  fun _ img himg => (image_labelled _ img himg).1

end Sys2Proof.Machine

/-! Scan 2 over a program (R75 to R83, R87): the words of the image line by line, its warnings, and
which lines an assembly depends on. -/

namespace Sys2Proof.Machine

/-! ## The words of an image -/

/-- `w` is the word of the instruction line with the mnemonic `m` and the operand tokens `ts` (R75 to
R80): `op*100 + k`, with `k` 0 for HALT and for an undefined symbol. -/
abbrev IsWordOf (labels : List (Text × Nat)) (vars : List VarEntry) (m : Text) (ts : List Text)
    (w : Int) : Prop :=
  ∃ op k : Nat, opcodeOf m = some op ∧ k ≤ 99 ∧ w = (op : Int) * 100 + (k : Int) ∧
    (op = 43 → k = 0 ∧ ts.length ≤ 1) ∧
    (op ≠ 43 → ∃ t, ts = [t] ∧ k = (operandValue labels vars t).getD 0)

/-- `l` is an instruction line with the word `w`. -/
def EncodesTo (labels : List (Text × Nat)) (vars : List VarEntry) (l : LineClass) (w : Int) : Prop :=
  ∃ m ts, l = .instr m ts ∧ IsWordOf labels vars m ts w

/-- Scan 2 after the lines `done`, in the tables of `img`: the words of its instruction lines and its
warnings. -/
structure Encoded (img : Image) (done : List LineClass) (st : AsmState) : Prop where
  labels_eq : st.labels = img.labels
  vars_eq : st.vars = img.vars
  words : List.Forall₂ (EncodesTo img.labels img.vars) (done.filter isInstrLine) st.words
  warnings_eq : st.warnings = done.filterMap (warningOf img)

theorem Encoded.resolve_eq {img : Image} {done : List LineClass} {st : AsmState}
    (h : Encoded img done st) (t : Text) :
    resolve st t = operandValue img.labels img.vars t := by
  rw [resolve_eq_operandValue, h.labels_eq, h.vars_eq]

theorem warningOf_of_not_instr (img : Image) (l : LineClass) (h : isInstrLine l = false) :
    warningOf img l = none := by
  cases l with
  | instr m ts => cases h
  | _ => rfl

theorem warningOf_halt (img : Image) (m : Text) (ts : List Text) (hop : opcodeOf m = some 43) :
    warningOf img (.instr m ts) = none := by
  unfold warningOf
  split
  case h_1 m t hl =>
    obtain ⟨rfl, rfl⟩ := LineClass.instr.inj hl
    exact if_neg fun hc => hc.1 hop
  all_goals rfl

theorem warningOf_operand (img : Image) (m t : Text) (op : Nat) (hop : opcodeOf m = some op)
    (h43 : op ≠ 43) : warningOf img (.instr m [t]) =
      if operandValue img.labels img.vars t = none then some (.undefinedSymbol t) else none := by
  simp [warningOf, hop, h43]

@[simp] theorem AsmState.emitWord_warnings (op k : Nat) (st : AsmState) :
    (st.emitWord op k).warnings = st.warnings := rfl

@[simp] theorem AsmState.warnUndefined_warnings (t : Text) (st : AsmState) :
    (st.warnUndefined t).warnings = st.warnings ++ [.undefinedSymbol t] := rfl

/-- A line that is no instruction adds no word and no warning. -/
theorem Encoded.skip {img : Image} {done : List LineClass} {st : AsmState} (h : Encoded img done st)
    (l : LineClass) (hl : isInstrLine l = false) : Encoded img (done ++ [l]) st := by
  refine ⟨h.labels_eq, h.vars_eq, ?_, ?_⟩
  · rw [List.filter_append, List.filter_singleton, hl]
    simpa using h.words
  · rw [List.filterMap_append, h.warnings_eq]
    simp [warningOf_of_not_instr img l hl]

/-- An accepted instruction line adds its word, and its warning if it has one. -/
theorem Encoded.emit {img : Image} {done : List LineClass} {st st' : AsmState}
    (h : Encoded img done st) (m : Text) (ts : List Text) (w : Int)
    (hlabels : st'.labels = st.labels) (hvars : st'.vars = st.vars)
    (hw : st'.words = st.words ++ [w]) (hword : IsWordOf img.labels img.vars m ts w)
    (hwarn : st'.warnings = st.warnings ++ (warningOf img (.instr m ts)).toList) :
    Encoded img (done ++ [.instr m ts]) st' := by
  refine ⟨hlabels.trans h.labels_eq, hvars.trans h.vars_eq, ?_, ?_⟩
  · rw [List.filter_append, hw]
    exact List.rel_append h.words (.cons ⟨m, ts, rfl, hword⟩ .nil)
  · rw [List.filterMap_append, hwarn, h.warnings_eq]
    cases hl : warningOf img (.instr m ts) <;> simp [hl]

theorem wordLine_encoded (img : Image) (done : List LineClass) (st : AsmState) (l : LineClass)
    (st' : AsmState) (h : Encoded img done st) (hl : wordLine st l = .ok st') :
    Encoded img (done ++ [l]) st' := by
  rcases wordLine_ok st st' l hl with ⟨rfl, hinstr⟩ | ⟨m, ts, rfl, he⟩
  · exact h.skip l hinstr
  · obtain ⟨hvars, hlabels, -, -⟩ := encodeLine_frame m ts st st' he
    rcases encodeLine_ok m ts st st' he with ⟨hop, hlen, rfl⟩ |
      ⟨op, t, hop, h43, rfl, ⟨k, hr, hk, rfl⟩ | ⟨hr, rfl⟩⟩
    · refine h.emit m ts _ hlabels hvars rfl
        ⟨43, 0, hop, Nat.zero_le 99, encodeWord_eq 43 0, fun _ => ⟨rfl, hlen⟩, absurd rfl⟩ ?_
      simp [warningOf_halt img m ts hop]
    · rw [h.resolve_eq] at hr
      refine h.emit m [t] _ hlabels hvars rfl
        ⟨op, k, hop, hk, encodeWord_eq op k, (absurd · h43), fun _ => ⟨t, rfl, by rw [hr]; rfl⟩⟩ ?_
      simp [warningOf_operand img m t op hop h43, hr]
    · rw [h.resolve_eq] at hr
      refine h.emit m [t] _ hlabels hvars rfl
        ⟨op, 0, hop, Nat.zero_le 99, encodeWord_eq op 0, (absurd · h43),
          fun _ => ⟨t, rfl, by rw [hr]; rfl⟩⟩ ?_
      simp [warningOf_operand img m t op hop h43, hr]

/-- What scan 2 leaves in an image, in the image's own tables. -/
theorem image_encoded (ls : List LineClass) (img : Image)
    (h : (assembleClasses ls).phase = .image img) :
    List.Forall₂ (EncodesTo img.labels img.vars) (ls.filter isInstrLine) img.words ∧
      img.warnings = ls.filterMap (warningOf img) := by
  obtain ⟨a, b, c, ha, hb, hc, -, rfl⟩ := assembleClasses_image ls img h
  obtain ⟨-, hwa, hna⟩ := scan1A_frame ls a ha
  obtain ⟨-, -, hwb, hnb⟩ := scan1B_frame ls a b hb
  obtain ⟨hvc, hlc, -, -⟩ := scan2_frame ls b c hc
  have hstart : Encoded c.toImage [] b.enterScan2 := by
    refine ⟨hlc.symm, hvc.symm, ?_, hnb.trans hna⟩
    rw [show b.enterScan2.words = [] from hwb.trans hwa]
    exact .nil
  have hend : Encoded c.toImage ls c :=
    scanLines_induction wordLine (Encoded c.toImage) (wordLine_encoded c.toImage) [] ls b.enterScan2
      c hstart hc
  exact ⟨hend.words, hend.warnings_eq⟩

theorem image_words_length (ls : List LineClass) (img : Image)
    (h : (assembleClasses ls).phase = .image img) : img.words.length = instrCount ls :=
  (image_encoded ls img h).1.length_eq.symm

theorem imageText_eq (img : Image) :
    imageText img = img.data.map render ++ img.words.map render := List.map_append

/-- Settles O57: the j-th instruction line and the j-th word are related in scan 2's result. -/
theorem imageWordsAreTheEncodedInstructionLines :
    Obligations.ImageWordsAreTheEncodedInstructionLines := by
  intro lines img himg
  obtain ⟨hwords, hwarnings⟩ := image_encoded _ img himg
  refine ⟨hwords.length_eq.symm, fun j m ts hj => ?_, hwarnings, imageText_eq img⟩
  obtain ⟨hjl, hline⟩ := List.getElem?_eq_some_iff.1 hj
  have hjw : j < img.words.length := hwords.length_eq ▸ hjl
  obtain ⟨m', ts', hl, op, k, hop, hk, hw, hhalt, hother⟩ := hwords.get hjl hjw
  rw [List.get_eq_getElem, hline] at hl
  obtain ⟨rfl, rfl⟩ := LineClass.instr.inj hl
  exact ⟨op, k, hop, hk, List.getElem?_eq_some_iff.2 ⟨hjw, hw⟩, hhalt, hother⟩

/-! ## The facts of R87 -/

/-- A mnemonic selects an assigned opcode (R54, R58). -/
theorem assignedOpcode_of_opcodeOf (t : Text) (op : Nat) (h : opcodeOf t = some op) :
    AssignedOpcode op := by
  have hall : ∀ e ∈ mnemonicTable, AssignedOpcode e.2 := by decide
  obtain ⟨e, he, -, rfl⟩ := mem_mnemonicTable_of_opcodeOf t op h
  exact hall e he

theorem EncodesTo.decodes {labels : List (Text × Nat)} {vars : List VarEntry} {l : LineClass}
    {w : Int} (h : EncodesTo labels vars l w) :
    1000 ≤ w ∧ w ≤ 4399 ∧ ∃ i, decode w = .ok i ∧ i.operand ≤ 99 := by
  obtain ⟨m, ts, -, op, k, hop, hk, rfl, -, -⟩ := h
  have hassigned := assignedOpcode_of_opcodeOf m op hop
  obtain ⟨i, hi⟩ := (decode_ok_exists_iff ((op : Int) * 100 + (k : Int))).2 (by omega)
  exact ⟨by omega, by omega, i, hi, (word_of_decode _ i hi).2⟩

theorem image_words_decode (ls : List LineClass) (img : Image)
    (h : (assembleClasses ls).phase = .image img) :
    ∀ w ∈ img.words, 1000 ≤ w ∧ w ≤ 4399 ∧ ∃ i, decode w = .ok i ∧ i.operand ≤ 99 := by
  intro w hw
  obtain ⟨hwords, -⟩ := image_encoded ls img h
  obtain ⟨j, hj, rfl⟩ := List.mem_iff_getElem.1 hw
  exact (hwords.get (hwords.length_eq ▸ hj) hj).decodes

theorem LabelAt.bounds {n : Nat} {ls : List LineClass} {name : Text} {a : Nat}
    (h : LabelAt n ls name a) : n ≤ a ∧ a ≤ n + instrCount ls := by
  obtain ⟨before, after, rfl, -, rfl⟩ := h
  have hle : instrCount before ≤ instrCount (before ++ .labelDef name :: after) :=
    ((List.sublist_append_left _ _).filter _).length_le
  omega

theorem Allocated.address_lt {ds : List (Text × Int)} {st : AsmState} (h : Allocated ds st)
    {v : VarEntry} (hv : v ∈ st.vars) : v.address < st.nextData := by
  rw [h.nextData_eq, ← List.mem_range, ← h.addresses]
  exact List.mem_map_of_mem hv

/-! ## The lines an assembly depends on -/

/-- Scan 1A skips every line that declares nothing (R71). -/
theorem declareLine_skip (st : AsmState) (l : LineClass) (h : isVarLine l = false) :
    declareLine st l = .ok st := by
  cases l with
  | varDecl name value => cases h
  | _ => rfl

/-- Scan 1B skips every line that is no code (R73). -/
theorem labelLine_skip (st : AsmState) (l : LineClass) (h : isCodeLine l = false) :
    labelLine st l = .ok st := by
  cases l with
  | labelDef name => cases h
  | instr m ts => cases h
  | _ => rfl

/-- Scan 2 skips every line that is no code (R75). -/
theorem wordLine_skip (st : AsmState) (l : LineClass) (h : isCodeLine l = false) :
    wordLine st l = .ok st := by
  cases l with
  | instr m ts => cases h
  | _ => rfl

/-- A scan that skips the lines `p` drops gives the same on line lists that differ only in those. -/
theorem scanLines_congr (f : AsmState → LineClass → Except AsmState AsmState) (p : LineClass → Bool)
    (hskip : ∀ st l, p l = false → f st l = .ok st) (ls ls' : List LineClass)
    (h : ls.filter p = ls'.filter p) (st : AsmState) : scanLines f ls st = scanLines f ls' st := by
  rw [scanLines_filter f p hskip ls, h, ← scanLines_filter f p hskip ls']

/-- Only the declarations and the code, each in their order, matter to an assembly (R87). -/
theorem assembleClasses_congr (ls ls' : List LineClass)
    (hvar : ls.filter isVarLine = ls'.filter isVarLine)
    (hcode : ls.filter isCodeLine = ls'.filter isCodeLine) :
    assembleClasses ls = assembleClasses ls' := by
  simp only [assembleClasses, scanLines_congr declareLine isVarLine declareLine_skip ls ls' hvar,
    scanLines_congr labelLine isCodeLine labelLine_skip ls ls' hcode,
    scanLines_congr wordLine isCodeLine wordLine_skip ls ls' hcode]

/-- Settles O52, from the three scans' results in the image. -/
theorem everyImageIsWellFormed : Obligations.EveryImageIsWellFormed := by
  refine ⟨fun lines img himg => ?_, fun l₁ l₂ => assembleClasses_congr _ _⟩
  have hlen := image_words_length _ img himg
  obtain ⟨hlabels, hnext⟩ := image_labelled _ img himg
  obtain ⟨a, ha, hvars, horigin, -⟩ := image_allocated _ img himg
  refine ⟨hlen, ?_, image_words_decode _ img himg, fun name address hn => ?_, fun v hv => ?_⟩
  · rw [hlen]
    exact hnext
  · rw [hlen]
    exact ((hlabels name address).1 hn).bounds
  · rw [horigin]
    exact ha.address_lt (hvars ▸ hv)

end Sys2Proof.Machine

/-! Input and output (R58, R100 to R103): the encoding and spelling of an opcode, what READ and WRITE
answer, which steps move a stream, and the READ that waits. -/

namespace Sys2Proof.Machine

/-! ## The encoding and the spellings of an opcode -/

/-- A row of the opcode map has the words of its opcode and no others (R50, R54). -/
theorem hasEncoding_of_fields (op : Nat) (mk : Nat → Instr) (hop : ∀ k, (mk k).opcode = op)
    (hk : ∀ k, (mk k).operand = k) : HasEncoding op mk := by
  intro w k
  constructor
  · intro hd
    obtain ⟨hw, hle⟩ := word_of_decode w (mk k) hd
    rw [hk] at hle
    rw [hop, hk] at hw
    exact ⟨hle, hw⟩
  · rintro ⟨hle, rfl⟩
    have hword : encode (mk k) = (op : Int) * 100 + (k : Int) := by rw [encode_eq, hop, hk]
    rw [← hword, decode_encode (mk k) (by rwa [hk])]

/-- A mnemonic selects an opcode exactly when its capitals are a spelling the table has for it (R58). -/
theorem opcodeOf_eq_some_iff (t : Text) (op : Nat) :
    opcodeOf t = some op ↔ ∃ e ∈ mnemonicTable, e.1.toList = upper t ∧ e.2 = op := by
  have hself : ∀ e ∈ mnemonicTable,
      upper e.1.toList = e.1.toList ∧ opcodeOf e.1.toList = some e.2 := by decide
  refine ⟨mem_mnemonicTable_of_opcodeOf t op, ?_⟩
  rintro ⟨e, he, ht, rfl⟩
  obtain ⟨hcap, hop⟩ := hself e he
  rw [← hop]
  exact opcodeOf_congr t e.1.toList (ht.symm.trans hcap.symm)

/-- The spellings of an opcode are those of its entries in the table (R58). -/
theorem spelledBy_of_table (op : Nat) (names : List String)
    (h : (mnemonicTable.filter fun e => decide (e.2 = op)).map Prod.fst = names) :
    SpelledBy op names := by
  subst h
  intro t
  rw [opcodeOf_eq_some_iff]
  constructor
  · rintro ⟨e, he, ht, hop⟩
    exact ⟨e.1, List.mem_map_of_mem (List.mem_filter.2 ⟨he, decide_eq_true hop⟩), ht.symm⟩
  · rintro ⟨n, hn, ht⟩
    obtain ⟨e, he, rfl⟩ := List.mem_map.1 hn
    obtain ⟨hmem, hop⟩ := List.mem_filter.1 he
    exact ⟨e, hmem, ht.symm, of_decide_eq_true hop⟩

/-- The read faults of `MemRead` are those of every opcode that reads the cell it names (R36, R37). -/
theorem faultsOnAbsentCell_of_readsCell (mk : Nat → Instr) (hr : ∀ k, readsCell (mk k) = true)
    (hk : ∀ k, (mk k).operand = k) : FaultsOnAbsentCell mk := by
  refine fun k s => ⟨fun hcap => ?_, fun hlt hc => ?_⟩
  · rw [← raiseFault_eq]
    exact exec_of_memRead_error (mk k) s _ (hr k) (by rw [hk, memRead_absent s k hcap])
  · rw [← raiseFault_eq]
    exact exec_of_memRead_error (mk k) s _ (hr k) (by rw [hk, memRead_uninit s k hlt hc])

/-! ## What READ and WRITE answer -/

theorem exec_read_nil (k : Nat) (s : State) (hs : s.input = []) :
    exec (.read k) s = .next s := by
  rw [exec, execRead, hs]

@[simp] theorem storeCell_input (k : Nat) (c : Cell) (s : State) :
    (storeCell k c s).input = s.input := by
  rcases storeCell_cases k c s with ⟨-, h⟩ | ⟨-, h⟩
  · rw [h]
  · rw [h, raiseFault_input]

/-- Past the taking of the item READ leaves the input alone, also when it faults (R103). -/
theorem acceptInput_input (k : Nat) (item : InputItem) (s : State) :
    (acceptInput k item s).input = s.input := by
  cases item with
  | inInt z =>
    rw [acceptInput]
    split
    · exact storeCell_input k _ s
    · exact raiseFault_input s .inputRange
  | inTok x => exact storeCell_input k _ s

/-- READ takes the first input item, if there is one (R100, R103). -/
theorem input_of_exec_read (k : Nat) (s t : State) (h : exec (.read k) s = .next t) :
    t.input = s.input.tail := by
  cases hs : s.input with
  | nil =>
    rw [exec_read_nil k s hs] at h
    cases h
    exact hs
  | cons item rest =>
    rw [exec_read_cons k s item rest hs] at h
    cases h
    exact acceptInput_input k item (s.withInput rest)

/-- READ of an item that is stored as the cell `c` (R100). -/
theorem exec_read_stores (k : Nat) (s : State) (item : InputItem) (rest : List InputItem) (c : Cell)
    (hin : s.input = item :: rest) (hk : k < s.cfg.cap)
    (haccept : ∀ u, acceptInput k item u = storeCell k c u) :
    ∃ t, exec (.read k) s = .next t ∧ StoresCell s k c t ∧
      t = { s with mem := t.mem, input := rest, pc := s.pc + 1 } := by
  refine ⟨{ s with mem := s.mem.write s.cfg.fill k c, input := rest, pc := s.pc + 1 }, ?_,
    storesCell_write s k c, rfl⟩
  rw [exec_read_cons k s item rest hin, haccept, storeCell_of_lt k c (s.withInput rest) hk]
  rfl

/-- WRITE emits the item that shows its cell (R101). -/
theorem exec_write_of_cell (k : Nat) (s : State) (c : Cell) (hk : k < s.cfg.cap)
    (hc : s.cellAt k = some c) :
    exec (.write k) s = .next { s with output := s.output ++ [outputOf c], pc := s.pc + 1 } := by
  rw [exec, execWrite, withCell, memRead_cell s k c hk hc]
  rfl

/-- WRITE emits one item and goes on, or faults and emits none (R101, R103). -/
theorem output_of_exec_write (k : Nat) (s t : State) (h : exec (.write k) s = .next t) :
    (t.state = s.state ∧ ∃ o, t.output = s.output ++ [o]) ∨
    ((∃ c, t.state = .faulted c) ∧ t.output = s.output) := by
  cases h
  rcases withCell_cases k s (fun c => (s.emit (outputOf c)).advance) with
    ⟨c, -, -, he⟩ | ⟨-, -, he⟩ | ⟨-, he⟩ <;> rw [he]
  · exact .inl ⟨rfl, outputOf c, rfl⟩
  · exact .inr ⟨⟨_, rfl⟩, rfl⟩
  · exact .inr ⟨⟨_, rfl⟩, rfl⟩

/-! ## Which steps move a stream -/

theorem Outcomes.input_eq_or_read (i : Instr) (s t : State) (ho : Outcomes i s t) :
    t.input = s.input ∨ ∃ k, i = .read k := by
  cases ho with
  | read k _ _ _ hi | readFault k _ _ _ hi => exact .inr ⟨k, hi⟩
  | _ => exact .inl rfl

theorem Outcomes.output_eq_or_write (i : Instr) (s t : State) (ho : Outcomes i s t) :
    t.output = s.output ∨ ∃ k, i = .write k := by
  cases ho with
  | write k _ hi => exact .inr ⟨k, hi⟩
  | _ => exact .inl rfl

/-- Away from an instruction no step moves a stream (R103). -/
theorem step_streams_or_outcomes (s t : State) (h : step s = .next t) :
    (t.input = s.input ∧ t.output = s.output) ∨ ∃ i, AtInstr s i ∧ Outcomes i s t := by
  rcases step_outcomes s t h with ⟨-, rfl⟩ | ⟨-, -, rfl⟩ | ⟨c, -, -, -, rfl⟩ | ⟨w, -, -, rfl⟩ |
    ⟨i, hat, -, ho⟩
  · exact .inl ⟨rfl, rfl⟩
  · exact .inl ⟨rfl, rfl⟩
  · exact .inl ⟨rfl, rfl⟩
  · exact .inl ⟨rfl, rfl⟩
  · exact .inr ⟨i, hat, ho⟩

theorem step_input_eq_or_read (s t : State) (h : step s = .next t) :
    t.input = s.input ∨ ∃ k, AtInstr s (.read k) := by
  rcases step_streams_or_outcomes s t h with ⟨hin, -⟩ | ⟨i, hat, ho⟩
  · exact .inl hin
  · rcases ho.input_eq_or_read i s t with hin | ⟨k, rfl⟩
    · exact .inl hin
    · exact .inr ⟨k, hat⟩

theorem step_output_eq_or_write (s t : State) (h : step s = .next t) :
    t.output = s.output ∨ ∃ k, AtInstr s (.write k) := by
  rcases step_streams_or_outcomes s t h with ⟨-, hout⟩ | ⟨i, hat, ho⟩
  · exact .inl hout
  · rcases ho.output_eq_or_write i s t with hout | ⟨k, rfl⟩
    · exact .inl hout
    · exact .inr ⟨k, hat⟩

/-- At a READ a step takes the first input item, if there is one. -/
theorem input_of_step_read (s t : State) (k : Nat) (hat : AtInstr s (.read k))
    (h : step s = .next t) : t.input = s.input.tail :=
  input_of_exec_read k s t (step_atInstr s _ hat ▸ h)

/-- The engine is at no READ and a WRITE at once. -/
theorem not_atInstr_read_and_write (s : State) (j k : Nat) (hr : AtInstr s (.read j))
    (hw : AtInstr s (.write k)) : False :=
  nomatch AtInstr_unique s _ _ hr hw

/-- Settles O14: READ and WRITE by what they answer, every other step by the streams it leaves. -/
theorem streamsMoveOnlyByReadAndWrite : Obligations.StreamsMoveOnlyByReadAndWrite := by
  intro s t hstep
  have hinput := step_input_eq_or_read s t hstep
  have houtput := step_output_eq_or_write s t hstep
  refine ⟨fun k hat => ⟨input_of_step_read s t k hat hstep, ?_⟩, fun k hat => ⟨?_, ?_⟩,
    fun hno => hinput.resolve_right (not_exists.2 hno),
    fun hno => houtput.resolve_right (not_exists.2 hno)⟩
  · exact houtput.resolve_right fun ⟨j, hw⟩ => not_atInstr_read_and_write s k j hat hw
  · exact hinput.resolve_right fun ⟨j, hr⟩ => not_atInstr_read_and_write s j k hr hat
  · have hs : s.state = .running := (running_of_atInstr s _ hat).1
    rcases output_of_exec_write k s t (step_atInstr s _ hat ▸ hstep) with
      ⟨hst, hout⟩ | ⟨⟨c, hst⟩, hout⟩
    · exact ⟨fun _ => hout, fun hne => absurd (hst.trans hs) hne⟩
    · exact ⟨fun hrun => (nomatch hst.symm.trans hrun), fun _ => hout⟩

/-! ## The READ that waits -/

theorem step_of_held (s : State) (h : Held s) : step s = .next s := by
  obtain ⟨k, hat, hin⟩ := h
  rw [step_atInstr s _ hat, exec_read_nil k s hin]

theorem drain_of_held (s : State) (n : Nat) (h : Held s) : drain n s = .next s := by
  have htrigger : trigger s = .next s := step_of_held s h
  induction n with
  | zero => rfl
  | succ n ih =>
    rw [drain, htrigger]
    split
    · rfl
    · exact ih

/-- A step at a READ that changes nothing took nothing, so there was nothing to take (R102). -/
theorem step_read_waits_iff (s : State) (k : Nat) (hat : AtInstr s (.read k)) :
    step s = .next s ↔ s.input = [] := by
  refine ⟨fun h => ?_, fun hin => step_of_held s ⟨k, hat, hin⟩⟩
  have hlen := congrArg List.length (input_of_step_read s s k hat h)
  rw [List.length_tail] at hlen
  exact List.eq_nil_of_length_eq_zero (by omega)

/-- Supplying input leaves the instruction that the next trigger runs. -/
theorem atInstr_supplyInput_iff (item : InputItem) (s : State) (i : Instr) :
    AtInstr (supplyInput item s) i ↔ AtInstr s i := Iff.rfl

/-- Settles O21: the supplied item is the only one, and the READ takes it. -/
theorem readWaitsForInput : Obligations.ReadWaitsForInput := by
  refine ⟨drain_of_held, step_read_waits_iff, ?_⟩
  rintro s item ⟨k, hat, hin⟩
  have hitem : (supplyInput item s).input = [item] := by rw [supplyInput_input, hin, List.nil_append]
  have hat' := (atInstr_supplyInput_iff item s _).2 hat
  obtain ⟨t, ht⟩ := exec_answers (.read k) (supplyInput item s)
  have hstep : step (supplyInput item s) = .next t := (step_atInstr _ _ hat').trans ht
  refine ⟨?_, t, hstep, by rw [input_of_step_read _ t k hat' hstep, hitem, List.tail_cons]⟩
  rintro ⟨-, -, hnone⟩
  exact List.cons_ne_nil item [] (hitem.symm.trans hnone)

/-! ## The two instructions -/

/-- Settles O20, item by item: an item that is accepted is stored as its cell, the others fault with
the item gone. -/
theorem readStoresTheNextInputItem : Obligations.ReadStoresTheNextInputItem := by
  refine ⟨hasEncoding_of_fields 10 .read (fun _ => rfl) fun _ => rfl, spelledBy_of_table 10 _ rfl,
    fun k z rest s hin hlo hhi hk => ?_, fun k x rest s hin hk => ?_, fun k z rest s hin hz => ?_,
    fun k item rest s hin hz hk => ?_⟩
  · exact exec_read_stores k s _ rest _ hin hk fun u => acceptInput_of_inRange k z u hlo hhi
  · exact exec_read_stores k s _ rest _ hin hk fun _ => rfl
  · rw [exec_read_cons k s _ rest hin, acceptInput_of_range k z _ hz, raiseFault_eq]
    rfl
  · rw [exec_read_cons k s item rest hin, acceptInput_absent k item (s.withInput rest) hz hk,
      raiseFault_eq]
    rfl

/-- Settles O22, from what WRITE does with the one cell it reads. -/
theorem writeEmitsTheCell : Obligations.WriteEmitsTheCell :=
  ⟨hasEncoding_of_fields 11 .write (fun _ => rfl) fun _ => rfl, spelledBy_of_table 11 _ rfl,
    faultsOnAbsentCell_of_readsCell .write (fun _ => rfl) fun _ => rfl,
    fun k w s hk hc => exec_write_of_cell k s (.numeric w) hk hc,
    fun k x s hk hc => exec_write_of_cell k s (.raw x) hk hc⟩

end Sys2Proof.Machine

/-! Load and store (R110 to R112): what LOAD, STORE and LOADI answer. -/

namespace Sys2Proof.Machine

/-! ## The operand read as a number -/

theorem numRead_raw (s : State) (a : Nat) (x : Token) (ha : a < s.cfg.cap)
    (hc : s.cellAt a = some (.raw x)) : numRead s a = .error .nonNumericOperand := by
  rw [numRead, memRead_cell s a _ ha hc]

/-- The read faults of `NumRead` are those of LOAD and the opcodes 30 to 34 (R36, R37, R38). -/
theorem faultsOnNoNumber_of_readsNumber (mk : Nat → Instr)
    (hr : ∀ k, readsNumber (mk k) = true) (hk : ∀ k, (mk k).operand = k) :
    FaultsOnNoNumber mk := by
  refine ⟨faultsOnAbsentCell_of_readsCell mk (fun k => readsCell_of_readsNumber _ (hr k)) hk,
    fun k x s hlt hc => ?_⟩
  rw [← raiseFault_eq]
  exact exec_of_numRead_error (mk k) s _ (hr k) (by rw [hk, numRead_raw s k x hlt hc])

/-! ## What LOAD, STORE and LOADI answer -/

/-- LOAD copies the number of its cell whole: neither extended nor cut (R110). -/
theorem exec_load_of_number (k : Nat) (w : Int) (s : State) (hk : k < s.cfg.cap)
    (hc : s.cellAt k = some (.numeric w)) :
    exec (.load k) s = .next { s with acc := w, pc := s.pc + 1 } := by
  rw [exec, execLoad, withNumber_of_ok k s _ w ((numRead_ok_iff s k w).2 ⟨hk, hc⟩)]
  rfl

/-- STORE never reads the cell it writes, so the old content does not matter (R111). -/
theorem exec_store_of_lt (k : Nat) (s : State) (hk : k < s.cfg.cap) :
    exec (.store k) s =
      .next { s with mem := s.mem.write s.cfg.fill k (.numeric s.acc), pc := s.pc + 1 } := by
  rw [exec, execStore, storeCell_of_lt k _ s hk]

theorem exec_store_absent (k : Nat) (s : State) (hk : s.cfg.cap ≤ k) :
    exec (.store k) s = .next (faultedWith .addressOutOfRange s) := by
  rw [exec, execStore, storeCell_absent k _ s hk, raiseFault_eq]

/-- LOADI has no branch: it cannot fault (R112). -/
theorem exec_loadi (k : Nat) (s : State) :
    exec (.loadi k) s = .next { s with acc := (k : Int), pc := s.pc + 1 } := rfl

/-! ## The three instructions -/

/-- Settles O23, from what LOAD does with the one number it reads. -/
theorem loadCopiesTheCell : Obligations.LoadCopiesTheCell :=
  ⟨hasEncoding_of_fields 20 .load (fun _ => rfl) fun _ => rfl, spelledBy_of_table 20 _ rfl,
    faultsOnNoNumber_of_readsNumber .load (fun _ => rfl) fun _ => rfl, exec_load_of_number⟩

/-- Settles O24: a write replaces the operand's cell and no other. -/
theorem storeWritesTheAccumulator : Obligations.StoreWritesTheAccumulator :=
  ⟨hasEncoding_of_fields 21 .store (fun _ => rfl) fun _ => rfl, spelledBy_of_table 21 _ rfl,
    fun k s hk => ⟨_, exec_store_of_lt k s hk, storesCell_write s k (.numeric s.acc), rfl⟩,
    exec_store_absent⟩

/-- Settles O25. -/
theorem loadiSetsTheLiteral : Obligations.LoadiSetsTheLiteral :=
  ⟨hasEncoding_of_fields 22 .loadi (fun _ => rfl) fun _ => rfl, spelledBy_of_table 22 _ rfl,
    exec_loadi⟩

end Sys2Proof.Machine

/-! Arithmetic (R120 to R133): truncating division, the ranges of exact results, and what the ten
arithmetic instructions answer. -/

namespace Sys2Proof.Machine

/-! ## Truncating division -/

/-- A remainder is zero, of a multiple of the divisor, or has the sign of the dividend (R121). -/
theorem tmod_eq_zero_or_sign_eq (a b : Int) : tmod a b = 0 ∨ (tmod a b).sign = a.sign := by
  have hsign : (tmod a b).sign = if b ∣ a then 0 else a.sign := by
    rw [tmod_eq_int_tmod, Int.sign_tmod]
  by_cases hdvd : b ∣ a
  · rw [if_pos hdvd] at hsign
    exact .inl (Int.sign_eq_zero_iff_zero.1 hsign)
  · rw [if_neg hdvd] at hsign
    exact .inr hsign

/-- Settles O36, by what Lean's truncating quotient and remainder are known to be. -/
theorem divisionTruncatesTowardZero : Obligations.DivisionTruncatesTowardZero := by
  intro a b hb
  refine ⟨tdiv_eq_int_tdiv a b, tmod_eq_int_tmod a b, ?_, tmod_natAbs_lt a b hb,
    tmod_eq_zero_or_sign_eq a b, fun ha _ => ⟨?_, ?_⟩⟩
  · rw [tmod, add_sub_cancel]
  · rw [tdiv_eq_int_tdiv, Int.tdiv_eq_ediv_of_nonneg ha]
  · rw [tmod_eq_int_tmod, Int.tmod_eq_emod_of_nonneg ha]

/-! ## The ranges of exact results -/

/-- The product of two lawful operands, in absolute value (R122). -/
theorem mul_bounds (a b : Int) (ha : inRange a = true) (hb : inRange b = true) :
    -99980001 ≤ a * b ∧ a * b ≤ 99980001 := by
  have ha' : a.natAbs ≤ 9999 := by have := (inRange_iff a).1 ha; omega
  have hb' : b.natAbs ≤ 9999 := by have := (inRange_iff b).1 hb; omega
  have hab : (a * b).natAbs ≤ 9999 * 9999 := Int.natAbs_mul a b ▸ Nat.mul_le_mul ha' hb'
  omega

/-- The quotient of a lawful dividend is lawful, also by 0 (R122). -/
theorem int_tdiv_bounds (a b : Int) (hlo : -9999 ≤ a) (hhi : a ≤ 9999) :
    -9999 ≤ a.tdiv b ∧ a.tdiv b ≤ 9999 := by
  have := tdiv_natAbs_le a b
  rw [tdiv_eq_int_tdiv] at this
  omega

/-- Of a division only a quotient is range-checked, and on a lawful accumulator the check passes
(R122). -/
theorem checkedResult_division_bounds (i : Instr) (a b r : Int)
    (hop : i.opcode = 32 ∨ i.opcode = 33 ∨ i.opcode = 37 ∨ i.opcode = 38)
    (ha : inRange a = true) (hr : checkedResult a b i = some r) : -9999 ≤ r ∧ r ≤ 9999 := by
  obtain ⟨hlo, hhi⟩ := (inRange_iff a).1 ha
  cases i with
  | div k | divi k =>
    obtain rfl := Option.some.inj hr
    by_cases hb : b = 0
    · rw [if_pos hb]
      decide
    · rw [if_neg hb]
      exact int_tdiv_bounds a b hlo hhi
  | mod k | modi k => cases hr
  | _ => simp [Instr.opcode] at hop

/-- Settles O37: by the fault table an `ArithRange` needs a checked result out of range. -/
theorem quotientsAndRemaindersNeverLeaveTheRange :
    Obligations.QuotientsAndRemaindersNeverLeaveTheRange := by
  refine ⟨fun a b ha hb => ?_, fun s t i hinv hat hop hstep hfault => ?_⟩
  · obtain ⟨halo, hahi⟩ := (inRange_iff a).1 ha
    obtain ⟨hblo, hbhi⟩ := (inRange_iff b).1 hb
    exact ⟨by omega, by omega, mul_bounds a b ha hb,
      fun h0 => ⟨tdiv_natAbs_le a b, tmod_natAbs_lt a b h0⟩⟩
  · obtain ⟨hs, hp⟩ := running_of_atInstr s i hat
    cases (step_faulted_iff s t _ hs hp hstep).1 hfault with
    | arithRange j b r hj _ hr hz =>
      obtain rfl := AtInstr_unique s i j hat hj
      obtain ⟨-, hacc, -⟩ := hinv
      have := checkedResult_division_bounds i s.acc b r hop hacc hr
      omega

/-! ## What an arithmetic opcode answers -/

/-- The opcodes 30 to 34 work on the number in their cell (R120). -/
theorem exec_of_cell (i : Instr) (s : State) (b : Int) (hr : readsNumber i = true)
    (hl : i.opcode ≠ 20) (hk : i.operand < s.cfg.cap)
    (hc : s.cellAt i.operand = some (.numeric b)) : exec i s = .next (operateOn b s i) := by
  have hn : numRead s i.operand = .ok b := (numRead_ok_iff s _ b).2 ⟨hk, hc⟩
  exact exec_of_secondOperand i s b ((secondOperand_of_numRead i s b hr hl).2 hn)

/-- An opcode that ends in the range check writes a result in range and faults on any other
(R120). -/
theorem exec_of_finishChecked (i : Instr) (s : State) (r : Int)
    (h : exec i s = .next (finishChecked r s)) :
    (-9999 ≤ r → r ≤ 9999 → exec i s = .next { s with acc := r, pc := s.pc + 1 }) ∧
    (r < -9999 ∨ 9999 < r → exec i s = .next (faultedWith .arithRange s)) := by
  rw [h, ← raiseFault_eq]
  rcases finishChecked_cases r s with ⟨hr, he⟩ | ⟨hr, he⟩ <;> rw [he]
  · exact ⟨fun _ _ => rfl, by omega⟩
  · exact ⟨by omega, fun _ => rfl⟩

/-- An opcode that ends in DIVIDE gives 0 with a warning for the divisor 0, and range-checks the
truncated quotient by any other (R123, R126). -/
theorem exec_of_divideBy (i : Instr) (s : State) (b : Int)
    (h : exec i s = .next (divideBy b s)) :
    (b = 0 → exec i s =
      .next { s with acc := 0, pc := s.pc + 1, diag := s.diag ++ [.divByZero s.pc] }) ∧
    (b ≠ 0 → exec i s = .next (finishChecked (s.acc.tdiv b) s)) := by
  rw [h, ← tdiv_eq_int_tdiv]
  rcases divideBy_cases b s with ⟨hb, he⟩ | ⟨hb, he⟩ <;> rw [he]
  · exact ⟨fun _ => rfl, fun h0 => absurd hb h0⟩
  · exact ⟨fun h0 => absurd h0 hb, fun _ => rfl⟩

/-- An opcode that ends in MODULO faults on the divisor 0 and else writes the truncating remainder,
unchecked (R122, R123, R127). -/
theorem exec_of_moduloBy (i : Instr) (s : State) (b : Int)
    (h : exec i s = .next (moduloBy b s)) :
    (b = 0 → exec i s = .next (faultedWith .modZero s)) ∧
    (b ≠ 0 → exec i s = .next { s with acc := s.acc.tmod b, pc := s.pc + 1 }) := by
  rw [h, ← tmod_eq_int_tmod, ← raiseFault_eq]
  rcases moduloBy_cases b s with ⟨hb, he⟩ | ⟨hb, he⟩ <;> rw [he]
  · exact ⟨fun _ => rfl, fun h0 => absurd hb h0⟩
  · exact ⟨fun h0 => absurd h0 hb, fun _ => rfl⟩

/-! ## The five memory-addressed instructions -/

/-- Settles O26: the range check on the exact sum. -/
theorem addAddsTheCell : Obligations.AddAddsTheCell :=
  ⟨hasEncoding_of_fields 30 .add (fun _ => rfl) fun _ => rfl, spelledBy_of_table 30 _ rfl,
    faultsOnNoNumber_of_readsNumber .add (fun _ => rfl) fun _ => rfl, fun k b s hk hc =>
      exec_of_finishChecked _ s (s.acc + b)
        (exec_of_cell (.add k) s b rfl (by simp [Instr.opcode]) hk hc)⟩

/-- Settles O27: the range check on accumulator minus memory. -/
theorem subtSubtractsTheCell : Obligations.SubtSubtractsTheCell :=
  ⟨hasEncoding_of_fields 31 .subt (fun _ => rfl) fun _ => rfl, spelledBy_of_table 31 _ rfl,
    faultsOnNoNumber_of_readsNumber .subt (fun _ => rfl) fun _ => rfl, fun k b s hk hc =>
      exec_of_finishChecked _ s (s.acc - b)
        (exec_of_cell (.subt k) s b rfl (by simp [Instr.opcode]) hk hc)⟩

/-- Settles O28: DIVIDE on the number in the cell; by R122 the range check never fires on a lawful
accumulator. -/
theorem divDividesByTheCell : Obligations.DivDividesByTheCell := by
  refine ⟨hasEncoding_of_fields 32 .div (fun _ => rfl) fun _ => rfl, spelledBy_of_table 32 _ rfl,
    faultsOnNoNumber_of_readsNumber .div (fun _ => rfl) fun _ => rfl, fun k b s hk hc => ?_,
    int_tdiv_bounds⟩
  obtain ⟨hzero, hquot⟩ :=
    exec_of_divideBy _ s b (exec_of_cell (.div k) s b rfl (by simp [Instr.opcode]) hk hc)
  exact ⟨hzero, fun hb => (exec_of_finishChecked _ s _ (hquot hb)).1,
    fun hb => (exec_of_finishChecked _ s _ (hquot hb)).2⟩

/-- Settles O29: MODULO on the number in the cell. -/
theorem modTakesTheRemainderByTheCell : Obligations.ModTakesTheRemainderByTheCell :=
  ⟨hasEncoding_of_fields 33 .mod (fun _ => rfl) fun _ => rfl, spelledBy_of_table 33 _ rfl,
    faultsOnNoNumber_of_readsNumber .mod (fun _ => rfl) fun _ => rfl, fun k b s hk hc =>
      exec_of_moduloBy _ s b
        (exec_of_cell (.mod k) s b rfl (by simp [Instr.opcode]) hk hc)⟩

/-- Settles O30: the range check on the exact product. -/
theorem multMultipliesByTheCell : Obligations.MultMultipliesByTheCell :=
  ⟨hasEncoding_of_fields 34 .mult (fun _ => rfl) fun _ => rfl, spelledBy_of_table 34 _ rfl,
    faultsOnNoNumber_of_readsNumber .mult (fun _ => rfl) fun _ => rfl, fun k b s hk hc =>
      exec_of_finishChecked _ s (s.acc * b)
        (exec_of_cell (.mult k) s b rfl (by simp [Instr.opcode]) hk hc)⟩

/-! ## The five immediate instructions -/

/-- Settles O31: adding a literal cannot take a lawful accumulator below the range. -/
theorem addiAddsTheLiteral : Obligations.AddiAddsTheLiteral := by
  refine ⟨hasEncoding_of_fields 35 .addi (fun _ => rfl) fun _ => rfl, spelledBy_of_table 35 _ rfl,
    fun k s hlo => ?_⟩
  obtain ⟨hok, hfault⟩ :=
    exec_of_finishChecked _ s (s.acc + (k : Int)) (exec_of_secondOperand (.addi k) s k rfl)
  exact ⟨hok (by omega), fun h => hfault (.inr h)⟩

/-- Settles O32: subtracting a literal cannot take a lawful accumulator above the range. -/
theorem subtiSubtractsTheLiteral : Obligations.SubtiSubtractsTheLiteral := by
  refine ⟨hasEncoding_of_fields 36 .subti (fun _ => rfl) fun _ => rfl, spelledBy_of_table 36 _ rfl,
    fun k s hhi => ?_⟩
  obtain ⟨hok, hfault⟩ :=
    exec_of_finishChecked _ s (s.acc - (k : Int)) (exec_of_secondOperand (.subti k) s k rfl)
  exact ⟨fun hlo => hok hlo (by omega), fun h => hfault (.inl h)⟩

/-- Settles O33: on a lawful accumulator the quotient passes the range check (R122). -/
theorem diviDividesByTheLiteral : Obligations.DiviDividesByTheLiteral := by
  refine ⟨hasEncoding_of_fields 37 .divi (fun _ => rfl) fun _ => rfl, spelledBy_of_table 37 _ rfl,
    fun k s hlo hhi => ?_⟩
  obtain ⟨hzero, hquot⟩ := exec_of_divideBy _ s k (exec_of_secondOperand (.divi k) s k rfl)
  obtain ⟨hqlo, hqhi⟩ := int_tdiv_bounds s.acc k hlo hhi
  exact ⟨fun hk => hzero (Int.natCast_eq_zero.2 hk), fun hk =>
    (exec_of_finishChecked _ s _ (hquot (Int.natCast_ne_zero.2 hk))).1 hqlo hqhi⟩

/-- Settles O34: MODULO on the literal. -/
theorem modiTakesTheRemainderByTheLiteral : Obligations.ModiTakesTheRemainderByTheLiteral := by
  refine ⟨hasEncoding_of_fields 38 .modi (fun _ => rfl) fun _ => rfl, spelledBy_of_table 38 _ rfl,
    fun k s => ?_⟩
  obtain ⟨hzero, hrem⟩ := exec_of_moduloBy _ s k (exec_of_secondOperand (.modi k) s k rfl)
  exact ⟨fun hk => hzero (Int.natCast_eq_zero.2 hk), fun hk => hrem (Int.natCast_ne_zero.2 hk)⟩

/-- Settles O35: the range check on the exact product. -/
theorem multiMultipliesByTheLiteral : Obligations.MultiMultipliesByTheLiteral :=
  ⟨hasEncoding_of_fields 39 .multi (fun _ => rfl) fun _ => rfl, spelledBy_of_table 39 _ rfl,
    fun k s =>
      exec_of_finishChecked _ s (s.acc * (k : Int)) (exec_of_secondOperand (.multi k) s k rfl)⟩

end Sys2Proof.Machine

/-! Control (R140 to R146): the trigger and its repetition, the fetch of a cell that holds no number,
the jumps and HALT. -/

namespace Sys2Proof.Machine

/-! ## The trigger -/

/-- A fetched word answers a next state: its instruction's, or the unknown-opcode path's (R147). -/
theorem runWord_answers (w : Int) (s : State) : ∃ t, runWord w s = .next t := by
  rw [runWord]
  cases decode w with
  | ok i => exact exec_answers i s
  | error e => exact ⟨_, rfl⟩

/-- A cycle answers a next state, a fault of the fetch being one (R12, R167). -/
theorem cycle_answers (s : State) : ∃ t, cycle s = .next t := by
  rw [cycle]
  cases fetchWord s with
  | ok w => exact runWord_answers w s
  | error c => exact ⟨_, rfl⟩

/-- Settles O8, over the three branches of the trigger. -/
theorem stepAlwaysAnswersANextState : Obligations.StepAlwaysAnswersANextState := by
  intro s
  by_cases hs : s.state = .running
  · by_cases hp : s.pc < s.cfg.cap
    · rw [step_of_cycle s hs hp]
      exact cycle_answers s
    · exact ⟨_, step_of_capacity s hs (Nat.not_lt.1 hp)⟩
  · exact ⟨s, step_of_terminal s hs⟩

/-! ## Run-to-completion -/

theorem steps_succ (n : Nat) (s t : State) (h : step s = .next t) :
    steps (n + 1) s = steps n t := by
  rw [steps, h]

theorem drain_succ (n : Nat) (s t : State) (hs : s.state = .running) (h : step s = .next t) :
    drain (n + 1) s = drain n t := by
  have htrigger : trigger s = .next t := h
  rw [drain, if_neg (not_not_intro hs), htrigger]

theorem steps_of_terminal (n : Nat) (s : State) (h : s.state ≠ .running) :
    steps n s = .next s := by
  induction n with
  | zero => rfl
  | succ n ih => rw [steps_succ n s s (step_of_terminal s h), ih]

theorem drain_of_terminal (n : Nat) (s : State) (h : s.state ≠ .running) :
    drain n s = .next s := by
  cases n with
  | zero => rfl
  | succ n => rw [drain, if_pos h]

/-- The early end of `run()` is not seen: a terminal state absorbs the steps that are left (R142). -/
theorem drain_eq_steps (n : Nat) (s : State) : drain n s = steps n s := by
  induction n generalizing s with
  | zero => rfl
  | succ n ih =>
    by_cases hs : s.state = .running
    · obtain ⟨t, ht⟩ := stepAlwaysAnswersANextState s
      rw [drain_succ n s t hs ht, steps_succ n s t ht, ih t]
    · rw [drain_of_terminal _ s hs, steps_of_terminal _ s hs]

/-- Settles O6: the three branches of the trigger, and `run()` by induction on the fuel. -/
theorem triggerIsTheStepPrimitive : Obligations.TriggerIsTheStepPrimitive :=
  ⟨step_of_terminal, step_of_capacity, step_of_cycle, drain_eq_steps⟩

/-! ## The fetch -/

/-- Settles O5. -/
theorem stepRunsTheDecodedInstruction : Obligations.StepRunsTheDecodedInstruction :=
  fun s w i hat hd => step_atInstr s i ⟨w, hat, hd⟩

theorem step_of_uninit_fetch (s : State) (hs : s.state = .running) (hp : s.pc < s.cfg.cap)
    (hc : s.cellAt s.pc = none) : step s = .next (raiseFault .uninitRead s) := by
  rw [step_of_cycle s hs hp, cycle, fetchWord, memRead_uninit s s.pc hp hc]

/-- Settles O7, by the two ways the fetch finds no number. -/
theorem fetchOfNoNumberFaults : Obligations.FetchOfNoNumberFaults := by
  refine fun s hs hp => ⟨fun hc => ?_, fun x hc => ?_⟩
  · rw [step_of_uninit_fetch s hs hp hc, raiseFault_eq]
  · rw [step_atCell_raw s x ⟨hs, hp, hc⟩, raiseFault_eq]

/-! ## The jumps and HALT -/

@[simp] theorem branchIf_true (k : Nat) (s : State) : branchIf true k s = { s with pc := k } := rfl

@[simp] theorem branchIf_false (k : Nat) (s : State) :
    branchIf false k s = { s with pc := s.pc + 1 } := rfl

/-- A conditional jump goes to its target when its condition holds and advances otherwise, and
changes nothing but `pc` (R144, R145). -/
theorem exec_of_branchIf (i : Instr) (s : State) (k : Nat) (p : Prop) [Decidable p]
    (h : exec i s = .next (branchIf (decide p) k s)) :
    (p → exec i s = .next { s with pc := k }) ∧
    (¬ p → exec i s = .next { s with pc := s.pc + 1 }) := by
  rw [h]
  refine ⟨fun hp => ?_, fun hp => ?_⟩
  · rw [decide_eq_true hp, branchIf_true]
  · rw [decide_eq_false hp, branchIf_false]

/-- JUMP has no condition: its target is the next `pc` (R143). -/
theorem exec_jump (k : Nat) (s : State) : exec (.jump k) s = .next { s with pc := k } := rfl

/-- HALT keeps `pc` and ignores its operand digits (R146, R56). -/
theorem exec_halt (k : Nat) (s : State) :
    exec (.halt k) s = .next { s with state := .halted } := rfl

/-- A halted engine absorbs every trigger (R142). -/
theorem step_of_halted (s : State) (h : s.state = .halted) : step s = .next s :=
  step_of_terminal s (by simp [h])

/-- Settles O38. -/
theorem jumpGoesToItsOperand : Obligations.JumpGoesToItsOperand :=
  ⟨hasEncoding_of_fields 40 .jump (fun _ => rfl) fun _ => rfl, spelledBy_of_table 40 _ rfl,
    exec_jump⟩

/-- Settles O39: zero is not negative, so it advances. -/
theorem jumpnTestsForNegative : Obligations.JumpnTestsForNegative := by
  refine ⟨hasEncoding_of_fields 41 .jumpn (fun _ => rfl) fun _ => rfl, spelledBy_of_table 41 _ rfl,
    fun k s => ?_⟩
  obtain ⟨htaken, huntaken⟩ := exec_of_branchIf (.jumpn k) s k (s.acc < 0) rfl
  exact ⟨htaken, fun hnonneg => huntaken (Int.not_lt.2 hnonneg)⟩

/-- Settles O40. -/
theorem jumpzTestsForZero : Obligations.JumpzTestsForZero :=
  ⟨hasEncoding_of_fields 42 .jumpz (fun _ => rfl) fun _ => rfl, spelledBy_of_table 42 _ rfl,
    fun k s => exec_of_branchIf (.jumpz k) s k (s.acc = 0) rfl⟩

/-- Settles O41: `Halted` is terminal, so no further cycle is performed. -/
theorem haltStopsTheEngine : Obligations.HaltStopsTheEngine :=
  ⟨hasEncoding_of_fields 43 .halt (fun _ => rfl) fun _ => rfl, spelledBy_of_table 43 _ rfl,
    exec_halt, step_of_halted⟩

end Sys2Proof.Machine

/-! Faults (R160 to R169): what no step touches, what fault entry leaves, and the one cause a
state can raise. -/

namespace Sys2Proof.Machine

/-! ## What no step touches -/

theorem Outcomes.asm_cfg_eq (i : Instr) (s t : State) (ho : Outcomes i s t) :
    t.asm = s.asm ∧ t.cfg = s.cfg := by
  cases ho <;> exact ⟨rfl, rfl⟩

/-- Settles O13, over everything a step can do. -/
theorem engineNeverTouchesTablesOrParameters :
    Obligations.EngineNeverTouchesTablesOrParameters := by
  intro s t hstep
  rcases step_outcomes s t hstep with ⟨-, rfl⟩ | ⟨-, -, rfl⟩ | ⟨c, -, -, -, rfl⟩ |
    ⟨w, -, -, rfl⟩ | ⟨i, -, -, ho⟩
  · exact ⟨rfl, rfl⟩
  · exact ⟨rfl, rfl⟩
  · exact ⟨rfl, rfl⟩
  · exact ⟨rfl, rfl⟩
  · exact ho.asm_cfg_eq i s t

/-! ## Fault entry -/

/-- An instruction that faults enters the fault from the state it began in, READ from that state
without the item it took (R167). -/
theorem Outcomes.raiseFault_cases (i : Instr) (s t : State) (c : FaultCause) (ho : Outcomes i s t)
    (hs : s.state = .running) (hf : t.state = .faulted c) :
    t = raiseFault c s ∨
    ∃ k item rest, i = .read k ∧ s.input = item :: rest ∧ t = raiseFault c (s.withInput rest) := by
  cases ho with
  | fault d =>
    obtain rfl := RunState.faulted.inj hf
    exact .inl rfl
  | readFault k item rest d hi hin =>
    obtain rfl := RunState.faulted.inj hf
    exact .inr ⟨k, item, rest, hi, hin, rfl⟩
  | halt => cases hf
  | _ => exact nomatch hs.symm.trans hf

/-- A step that faults enters the fault from the state it began in, at a READ from that state
without the item the READ took (R167). -/
theorem step_raiseFault_cases (s t : State) (c : FaultCause) (hs : s.state = .running)
    (hstep : step s = .next t) (hf : t.state = .faulted c) :
    t = raiseFault c s ∨
    ∃ k item rest, AtInstr s (.read k) ∧ s.input = item :: rest ∧
      t = raiseFault c (s.withInput rest) := by
  rcases step_outcomes s t hstep with ⟨hns, -⟩ | ⟨-, -, rfl⟩ | ⟨d, -, -, -, rfl⟩ |
    ⟨w, -, -, rfl⟩ | ⟨i, hat, -, ho⟩
  · exact absurd hs hns
  · cases hf
  · obtain rfl := RunState.faulted.inj hf
    exact .inl rfl
  · exact nomatch hs.symm.trans hf
  · rcases ho.raiseFault_cases i s t c hs hf with ht | ⟨k, item, rest, rfl, hin, ht⟩
    · exact .inl ht
    · exact .inr ⟨k, item, rest, hat, hin, ht⟩

/-- Settles O18, by the two states a fault can be entered from. -/
theorem faultsArePrecise : Obligations.FaultsArePrecise := by
  intro s t c hs hstep hf
  rcases step_raiseFault_cases s t c hs hstep hf with rfl | ⟨k, item, rest, hat, hin, rfl⟩
  · exact ⟨rfl, .inl rfl⟩
  · exact ⟨rfl, .inr ⟨k, item, hat, hin⟩⟩

/-! ## At most one cause -/

/-- A row of the fault table is about the fetch or about the instruction fetched (R160). -/
theorem FaultsWith.fetch_or_atInstr (s : State) (c : FaultCause) (h : FaultsWith s c) :
    (s.cellAt s.pc = none ∧ c = .uninitRead) ∨
    (∃ x, s.cellAt s.pc = some (.raw x) ∧ c = .nonNumericFetch) ∨ ∃ i, AtInstr s i := by
  cases h with
  | fetchUninit hc => exact .inl ⟨hc, rfl⟩
  | fetchRaw x hc => exact .inr (.inl ⟨x, hc, rfl⟩)
  | inputRange _ _ _ hat | readAddress _ _ _ hat | storeAddress _ hat | operandAddress _ hat
  | operandUninit _ hat | operandRaw _ _ hat | modZero _ hat | arithRange _ _ _ hat =>
    exact .inr (.inr ⟨_, hat⟩)

/-- At an instruction two causes are the cause of one step. -/
theorem FaultsWith.unique_of_atInstr (s : State) (i : Instr) (c d : FaultCause) (hat : AtInstr s i)
    (hc : FaultsWith s c) (hd : FaultsWith s d) : c = d := by
  obtain ⟨hs, hp⟩ := running_of_atInstr s i hat
  obtain ⟨t, hstep⟩ := stepAlwaysAnswersANextState s
  have htc := step_faulted_of_faultsWith s t c hs hp hc hstep
  have htd := step_faulted_of_faultsWith s t d hs hp hd hstep
  exact RunState.faulted.inj (htc.symm.trans htd)

theorem FaultsWith.unique (s : State) (c d : FaultCause) (hc : FaultsWith s c)
    (hd : FaultsWith s d) : c = d := by
  rcases hc.fetch_or_atInstr s c with ⟨hcell, rfl⟩ | ⟨x, hcell, rfl⟩ | ⟨i, hat⟩
  · rcases hd.fetch_or_atInstr s d with ⟨-, rfl⟩ | ⟨y, hcell', -⟩ | ⟨i, hat⟩
    · rfl
    · exact nomatch hcell.symm.trans hcell'
    · exact unique_of_atInstr s i _ d hat hc hd
  · rcases hd.fetch_or_atInstr s d with ⟨hcell', -⟩ | ⟨y, -, rfl⟩ | ⟨i, hat⟩
    · exact nomatch hcell.symm.trans hcell'
    · rfl
    · exact unique_of_atInstr s i _ d hat hc hd
  · exact unique_of_atInstr s i c d hat hc hd

/-- Settles O19. -/
theorem faultCausesAreExactlyTheTable : Obligations.FaultCausesAreExactlyTheTable :=
  ⟨step_faulted_iff, FaultsWith.unique⟩

end Sys2Proof.Machine

/-! A failed assembly (R161, R76 to R82): each scan completes exactly when it has nothing to refuse,
and fails with the first thing it refuses. -/

namespace Sys2Proof.Machine

/-! ## The first problem of a scan -/

@[simp] theorem AsmState.fail_vars (r : AsmFailure) (st : AsmState) :
    (st.fail r).vars = st.vars := rfl

@[simp] theorem AsmState.fail_labels (r : AsmFailure) (st : AsmState) :
    (st.fail r).labels = st.labels := rfl

/-- While `P` holds, a line that `f` accepts has no problem and keeps `P`, and a line that `f`
refuses fails the assembly with the line's problem. -/
structure RefusesBy (f : AsmState → LineClass → Except AsmState AsmState) (P : AsmState → Prop)
    (problem : LineClass → Option AsmFailure) : Prop where
  accepted : ∀ st l st', P st → f st l = .ok st' → problem l = none ∧ P st'
  refused : ∀ st l bad, P st → f st l = .error bad → ∃ r, problem l = some r ∧ bad = st.fail r

section Scan

variable {f : AsmState → LineClass → Except AsmState AsmState} {P : AsmState → Prop}
  {problem : LineClass → Option AsmFailure}

theorem RefusesBy.of_completed (hf : RefusesBy f P problem) (ls : List LineClass)
    (st st' : AsmState) (h0 : P st) (h : scanLines f ls st = .ok st') :
    ls.filterMap problem = [] ∧ P st' := by
  refine scanLines_induction f (fun done u => done.filterMap problem = [] ∧ P u) ?_ [] ls st st'
    ⟨rfl, h0⟩ h
  rintro done u l u' ⟨hdone, hP⟩ hl
  obtain ⟨hnone, hP'⟩ := hf.accepted u l u' hP hl
  exact ⟨by simp [hdone, hnone], hP'⟩

/-- The lines before the one that fails a scan have no problem, so the reason is the first
problem. -/
theorem RefusesBy.of_failed (hf : RefusesBy f P problem) (ls : List LineClass) (st bad : AsmState)
    (h0 : P st) (h : scanLines f ls st = .error bad) :
    ∃ st0 r, P st0 ∧ bad = st0.fail r ∧ (ls.filterMap problem).head? = some r := by
  obtain ⟨pre, l, post, st0, rfl, hpre, hl⟩ := scanLines_error f ls st bad h
  obtain ⟨hnone, hP⟩ := hf.of_completed pre st st0 h0 hpre
  obtain ⟨r, hr, hbad⟩ := hf.refused st0 l bad hP hl
  exact ⟨st0, r, hP, hbad, by simp [hnone, hr]⟩

end Scan

/-! ## Scan 1A -/

/-- A first declaration of `ds` with a value outside the range (R82). -/
def isRefusedValue (ds : List (Text × Int)) (d : Text × Int) : Bool :=
  ds.lookup d.1 == some d.2 && decide (d.2 < -9999 ∨ 9999 < d.2)

theorem valueProblems_eq (ls : List LineClass) : valueProblems ls =
    ((declarations ls).filter (isRefusedValue (declarations ls))).map
      fun d => .initValueRange d.1 d.2 := rfl

theorem isRefusedValue_iff (ds : List (Text × Int)) (d : Text × Int) :
    isRefusedValue ds d = true ↔ ds.lookup d.1 = some d.2 ∧ inRange d.2 = false := by
  rw [not_inRange_iff, isRefusedValue, Bool.and_eq_true, beq_iff_eq, decide_eq_true_eq]

theorem scan1A_values_inRange (ls : List LineClass) (a : AsmState)
    (h : scanLines declareLine ls enterScan1A = .ok a) : ∀ v ∈ a.vars, inRange v.value = true := by
  refine scanLines_keeps declareLine (fun st => ∀ v ∈ st.vars, inRange v.value = true) ?_ ls
    enterScan1A a (List.forall_mem_nil _) h
  intro st l st' hvars hl
  rcases declareLine_ok st st' l hl with ⟨rfl, -⟩ | ⟨name, value, -, -, hr, rfl⟩
  · exact hvars
  · rw [AsmState.declare_vars, List.forall_mem_append, List.forall_mem_singleton]
    exact ⟨hvars, hr⟩

/-- A name the symbol table does not have was not declared (R71). -/
theorem Allocated.lookup_of_new {ds : List (Text × Int)} {st : AsmState} (h : Allocated ds st)
    (name : Text) (hnew : st.lookupVar name = none) : ds.lookup name = none := by
  have hfresh : name ∉ ds.map Prod.fst := by rwa [← h.names, ← lookupVar_eq_none_iff]
  exact List.lookup_eq_none_iff.2 fun d hd =>
    bne_iff_ne.2 fun he : name = d.1 => hfresh (he ▸ List.mem_map_of_mem hd)

/-- Nothing that scan 1A has completed is refused, whatever declarations follow: the first value of
each name is the one it accepted. -/
theorem scan1A_refuses_nothing (ls : List LineClass) (a : AsmState) (es : List (Text × Int))
    (h : scanLines declareLine ls enterScan1A = .ok a) :
    (declarations ls).filter (isRefusedValue (declarations ls ++ es)) = [] := by
  have halloc := scan1A_allocated ls a h
  refine List.filter_eq_nil_iff.2 fun d hd hrefused => ?_
  obtain ⟨hlookup, hrange⟩ := (isRefusedValue_iff _ d).1 hrefused
  obtain ⟨v, hv, hname⟩ := List.mem_map.1 ((halloc.names d.1).2 (List.mem_map_of_mem hd))
  rw [← hname, List.lookup_append, halloc.values v hv, Option.some_or] at hlookup
  have hok := scan1A_values_inRange ls a h v hv
  rw [Option.some.inj hlookup, hrange] at hok
  cases hok

theorem valueProblems_of_completed (ls : List LineClass) (a : AsmState)
    (h : scanLines declareLine ls enterScan1A = .ok a) : valueProblems ls = [] := by
  have hnil := scan1A_refuses_nothing ls a [] h
  rw [List.append_nil] at hnil
  rw [valueProblems_eq, hnil, List.map_nil]

theorem declarations_append_varDecl (pre post : List LineClass) (name : Text) (value : Int) :
    declarations (pre ++ .varDecl name value :: post) =
      declarations pre ++ (name, value) :: declarations post :=
  List.filterMap_append

/-- The declaration that fails scan 1A is the first of its name, and the first refused. -/
theorem valueProblems_of_failed (ls : List LineClass) (bad : AsmState)
    (h : scanLines declareLine ls enterScan1A = .error bad) :
    ∃ r, bad.phase = .failed r ∧ (valueProblems ls).head? = some r := by
  obtain ⟨pre, l, post, st, rfl, hpre, hl⟩ := scanLines_error _ ls _ bad h
  obtain ⟨name, value, rfl, hnew, hrange, rfl⟩ := declareLine_error st bad l hl
  refine ⟨_, rfl, ?_⟩
  have hnone := (scan1A_allocated pre st hpre).lookup_of_new name hnew
  have hrefused : isRefusedValue (declarations pre ++ (name, value) :: declarations post)
      (name, value) = true := by
    rw [isRefusedValue_iff, List.lookup_append, hnone, Option.none_or]
    exact ⟨List.lookup_cons_self, hrange⟩
  rw [valueProblems_eq, declarations_append_varDecl, List.filter_append,
    scan1A_refuses_nothing pre st _ hpre, List.nil_append, List.filter_cons_of_pos hrefused]
  rfl

/-! ## Scan 1B -/

/-- Scan 1B refuses the label names that are no identifiers (R77c). -/
theorem labelLine_refusesBy : RefusesBy labelLine (fun _ => True) labelProblem where
  accepted st l st' _ h := by
    refine ⟨?_, trivial⟩
    cases l with
    | labelDef name =>
      rw [labelLine] at h
      split at h
      case isTrue hname => exact if_pos hname
      case isFalse => cases h
    | _ => rfl
  refused st l bad _ h := by
    obtain ⟨name, rfl, hname, rfl⟩ := labelLine_error st bad l h
    exact ⟨.malformedLine, by simp [labelProblem, hname], rfl⟩

/-! ## Scan 2 -/

/-- Scan 2 refuses the problems of an instruction line in the tables it resolves in, which it never
writes (R76, R77, R81). -/
theorem wordLine_refusesBy (labels : List (Text × Nat)) (vars : List VarEntry) :
    RefusesBy wordLine (fun st => st.labels = labels ∧ st.vars = vars)
      (instrProblem labels vars) where
  accepted := by
    rintro st l st' ⟨rfl, rfl⟩ h
    rcases wordLine_ok st st' l h with ⟨rfl, hl⟩ | ⟨m, ts, rfl, he⟩
    · refine ⟨?_, rfl, rfl⟩
      cases l with
      | instr m ts => cases hl
      | _ => rfl
    · obtain ⟨hvars, hlabels, -, -⟩ := encodeLine_frame m ts st st' he
      refine ⟨?_, hlabels, hvars⟩
      rcases encodeLine_ok m ts st st' he with ⟨hop, hlen, -⟩ |
        ⟨op, t, hop, h43, rfl, ⟨k, hr, hk, -⟩ | ⟨hr, -⟩⟩
      · simp [instrProblem, hop, Nat.not_lt.2 hlen]
      · rw [resolve_eq_operandValue] at hr
        simp [instrProblem, hop, hr, Nat.not_lt.2 hk]
      · rw [resolve_eq_operandValue] at hr
        simp [instrProblem, hop, hr]
  refused := by
    rintro st l bad ⟨rfl, rfl⟩ h
    obtain ⟨m, ts, rfl, he⟩ := wordLine_error st bad l h
    rcases encodeLine_error m ts st bad he with ⟨hop, rfl⟩ | ⟨op, hop, hlen, rfl⟩ |
      ⟨op, hop, h43, rfl, rfl⟩ | ⟨op, t, k, hop, h43, rfl, hr, hk, rfl⟩
    · exact ⟨_, by simp [instrProblem, hop], rfl⟩
    · exact ⟨_, by simp [instrProblem, hop, hlen], rfl⟩
    · exact ⟨_, by simp [instrProblem, hop, h43], rfl⟩
    · rw [resolve_eq_operandValue] at hr
      exact ⟨_, by simp [instrProblem, hop, h43, hr, hk], rfl⟩

/-! ## The whole assembly -/

/-- An assembly is an image of a program without problems, or fails with the first of them
(R161). -/
theorem assembleClasses_problems (ls : List LineClass) (st : AsmState)
    (hst : assembleClasses ls = st) :
    ((∃ img, st.phase = .image img) ∧ problems st.labels st.vars ls = []) ∨
    ∃ r, st.phase = .failed r ∧ (problems st.labels st.vars ls).head? = some r := by
  have hcases := assembleClasses_cases ls
  rw [hst] at hcases
  rcases hcases with ⟨a, b, c, ha, hb, hc, rfl⟩ | h | ⟨a, ha, h⟩ | ⟨a, b, ha, hb, h⟩
  · have hvalues := valueProblems_of_completed ls a ha
    obtain ⟨hlabels, -⟩ := labelLine_refusesBy.of_completed ls _ b trivial hb
    obtain ⟨hinstrs, hl, hv⟩ :=
      (wordLine_refusesBy b.labels b.vars).of_completed ls b.enterScan2 c ⟨rfl, rfl⟩ hc
    refine .inl ⟨⟨c.toImage, rfl⟩, ?_⟩
    rw [show c.finish.labels = b.labels from hl, show c.finish.vars = b.vars from hv, problems,
      hvalues, hlabels, hinstrs]
    rfl
  · obtain ⟨r, hphase, hhead⟩ := valueProblems_of_failed ls st h
    exact .inr ⟨r, hphase, by simp [problems, hhead]⟩
  · have hvalues := valueProblems_of_completed ls a ha
    obtain ⟨st0, r, -, rfl, hhead⟩ := labelLine_refusesBy.of_failed ls _ st trivial h
    exact .inr ⟨r, rfl, by simp [problems, hvalues, hhead]⟩
  · have hvalues := valueProblems_of_completed ls a ha
    obtain ⟨hlabels, -⟩ := labelLine_refusesBy.of_completed ls _ b trivial hb
    obtain ⟨st0, r, ⟨hl, hv⟩, rfl, hhead⟩ :=
      (wordLine_refusesBy b.labels b.vars).of_failed ls b.enterScan2 st ⟨rfl, rfl⟩ h
    refine .inr ⟨r, rfl, ?_⟩
    rw [AsmState.fail_labels, AsmState.fail_vars, hl, hv, problems, hvalues, hlabels]
    exact hhead

/-- Settles O59: an image has no reason and an empty list of problems no head. -/
theorem assemblyFailsWithTheFirstProblemMet : Obligations.AssemblyFailsWithTheFirstProblemMet := by
  refine ⟨fun lines => ?_, isIdentifier_iff⟩
  rcases assembleClasses_problems (lines.map classify) (assemble lines) rfl with
    ⟨⟨img, hphase⟩, hnil⟩ | ⟨r, hphase, hhead⟩
  · simp [hphase, hnil]
  · have hne : problems (assemble lines).labels (assemble lines).vars (lines.map classify) ≠ [] :=
      fun hnil => by simp [hnil] at hhead
    simp [hphase, hhead, hne]

end Sys2Proof.Machine

/-! Reset, loading and the boot (R84, R180 to R184): what each host call keeps of the invariant,
what an assembled image has that the loader needs, and the first step after a boot. -/

namespace Sys2Proof.Machine

/-! ## What assembling and loading answer -/

@[simp] theorem assembleLines_state (lines : List Text) (s : State) :
    (assembleLines lines s).state = s.state := rfl

@[simp] theorem assembleLines_diag (lines : List Text) (s : State) :
    (assembleLines lines s).diag = s.diag ++ (assemble lines).reports := rfl

/-- The engine after the loader put `img` into memory and reset with its origin (R84). -/
abbrev loadedWith (img : Image) (s : State) : State :=
  resetTo img.origin { s with mem := imageMemory s.cfg.fill img }

theorem loadImage_ok_iff (img : Image) (s t : State) : loadImage img s = .ok t ↔
    img.origin + img.words.length ≤ s.cfg.cap ∧ t = loadedWith img s := by
  by_cases hfits : img.origin + img.words.length ≤ s.cfg.cap
  · simp [loadImage_of_fits img s hfits, hfits, eq_comm]
  · simp [loadImage_of_too_large img s (Nat.not_le.1 hfits), hfits]

/-- Only the image of the last assembly is ever booted (R85, R183). -/
theorem boot_ok_iff (s t : State) :
    boot s = .ok t ↔ ∃ img, s.asm.phase = .image img ∧ loadImage img s = .ok t := by
  rw [boot]
  cases hphase : s.asm.phase <;> simp

/-- An assembled image that fits is booted (R183). -/
theorem boot_of_image (s : State) (lines : List Text) (img : Image)
    (himg : (assemble lines).phase = .image img)
    (hfits : img.origin + img.words.length ≤ s.cfg.cap) :
    boot (assembleLines lines s) = .ok (loadedWith img (assembleLines lines s)) :=
  (boot_ok_iff _ _).2 ⟨img, himg, loadImage_of_fits img _ hfits⟩

/-! ## What an assembled image has -/

/-- There is one data word per data address (R72, R83). -/
theorem image_data_length (lines : List Text) (img : Image)
    (h : (assemble lines).phase = .image img) : img.data.length = img.origin := by
  obtain ⟨horigin, hdata, -⟩ := variablesGetAddressesInFirstDeclarationOrder lines img h
  rw [hdata, List.length_map, horigin]

/-- The data words are the values scan 1A accepted (R82). -/
theorem image_data_inRange (ls : List LineClass) (img : Image)
    (h : (assembleClasses ls).phase = .image img) : ∀ w ∈ img.data, inRange w = true := by
  obtain ⟨a, b, c, ha, hb, hc, -, rfl⟩ := assembleClasses_image ls img h
  obtain ⟨hvb, -⟩ := scan1B_frame ls a b hb
  obtain ⟨hvc, -⟩ := scan2_frame ls b c hc
  have hvars : c.vars = a.vars := hvc.trans hvb
  refine List.forall_mem_map.2 fun v hv => scan1A_values_inRange ls a ha v ?_
  rwa [← hvars]

theorem image_words_inRange (ls : List LineClass) (img : Image)
    (h : (assembleClasses ls).phase = .image img) : ∀ w ∈ img.words, inRange w = true := by
  intro w hw
  obtain ⟨hlo, hhi, -⟩ := image_words_decode ls img h w hw
  exact (inRange_iff w).2 ⟨by omega, by omega⟩

/-- An image without warnings reports nothing (R70, D15). -/
theorem reports_of_image (lines : List Text) (img : Image)
    (h : (assemble lines).phase = .image img) (hwarn : img.warnings = []) :
    (assemble lines).reports = [] := by
  obtain ⟨a, b, c, -, -, -, hfinish, rfl⟩ := assembleClasses_image _ img h
  have hnone : (assemble lines).warnings = [] := by rw [assemble, hfinish]; exact hwarn
  rw [AsmState.reports, h, hnone]
  rfl

/-! ## The invariant -/

/-- A supplied item goes to the end of the stream (R102). -/
theorem supplyInput_inv (s : State) (item : InputItem) (hitem : item.wf = true) (h : Inv s) :
    Inv (supplyInput item s) := by
  obtain ⟨hcfg, hacc, hpc, hmem, hin, hout⟩ := h
  refine ⟨hcfg, hacc, hpc, hmem, ?_, hout⟩
  rw [supplyInput_input, List.forall_mem_append, List.forall_mem_singleton]
  exact ⟨hin, hitem⟩

/-- Zero is a lawful accumulator, so only the origin matters (R10, R11). -/
theorem resetTo_inv (s : State) (n : Nat) (hn : n ≤ max s.cfg.cap 99) (h : Inv s) :
    Inv (resetTo n s) := by
  obtain ⟨hcfg, -, -, hmem, hin, hout⟩ := h
  exact ⟨hcfg, rfl, hn, hmem, hin, hout⟩

/-- Assembling touches nothing the invariant speaks of. -/
theorem assembleLines_inv (lines : List Text) (s : State) : Inv (assembleLines lines s) ↔ Inv s :=
  Iff.rfl

/-- A load that fits brings `pc` to at most `CAP` and memory to canonical form (R11, R15, R84). -/
theorem loadedWith_inv (img : Image) (s : State) (hdata : img.data.length ≤ img.origin)
    (hd : ∀ w ∈ img.data, inRange w = true) (hw : ∀ w ∈ img.words, inRange w = true)
    (hfits : img.origin + img.words.length ≤ s.cfg.cap) (h : Inv s) : Inv (loadedWith img s) := by
  obtain ⟨hcfg, hacc, hpc, -, hin, hout⟩ := h
  have hmem : Memory.wf s.cfg (imageMemory s.cfg.fill img) :=
    imageMemory_wf s.cfg img (by omega) hfits hd hw
  have horigin : img.origin ≤ s.cfg.cap := by omega
  exact resetTo_inv _ _ (le_max_of_le_left horigin) ⟨hcfg, hacc, hpc, hmem, hin, hout⟩

/-- Booting what was assembled keeps the invariant (R183). -/
theorem boot_inv (s t : State) (lines : List Text) (h : Inv s)
    (hboot : boot (assembleLines lines s) = .ok t) : Inv t := by
  obtain ⟨img, himg, hload⟩ := (boot_ok_iff _ _).1 hboot
  obtain ⟨hfits, rfl⟩ := (loadImage_ok_iff _ _ _).1 hload
  exact loadedWith_inv img _ (Nat.le_of_eq (image_data_length lines img himg))
    (image_data_inRange _ img himg) (image_words_inRange _ img himg) hfits
    ((assembleLines_inv lines s).2 h)

/-- Settles O12, call by call. -/
theorem hostCallsKeepTheInvariant : Obligations.HostCallsKeepTheInvariant :=
  ⟨fun s item h hitem => supplyInput_inv s item hitem h, fun s n h hn => resetTo_inv s n hn h,
    fun s lines => (assembleLines_inv lines s).2, boot_inv⟩

/-! ## The first step -/

/-- The engine just loaded fetches the first instruction word, which stands at the origin (R84). -/
theorem atWord_loadedWith (img : Image) (s : State) (w : Int) (rest : List Int)
    (hw : img.words = w :: rest) (hfits : img.origin + img.words.length ≤ s.cfg.cap) :
    AtWord (loadedWith img s) w := by
  have hlt : img.origin < s.cfg.cap := by rw [hw, List.length_cons] at hfits; omega
  exact ⟨rfl, hlt, imageMemory_read_words s.cfg.fill img 0 w (by rw [hw]; rfl)⟩

/-- A load from empty histories reaches the launch premises (R184). -/
theorem launched_loadedWith (img : Image) (s : State) (hout : s.output = []) (hdiag : s.diag = []) :
    Launched img (loadedWith img s) :=
  ⟨rfl, rfl, rfl, rfl, hout, hdiag⟩

/-- Settles O48: the first word of an image decodes, and stands where the booted engine fetches. -/
theorem assembledProgramStartsAtItsFirstInstruction :
    Obligations.AssembledProgramStartsAtItsFirstInstruction := by
  refine ⟨fun s lines img w rest himg hw hfits => ?_,
    fun s lines img himg hwarn hfits hout hdiag => ?_⟩
  · obtain ⟨-, -, i, hi, -⟩ := image_words_decode _ img himg w (hw ▸ List.mem_cons_self)
    have hat := atWord_loadedWith img (assembleLines lines s) w rest hw hfits
    exact ⟨_, i, boot_of_image s lines img himg hfits, hi, step_atInstr _ i ⟨w, hat, hi⟩⟩
  · refine ⟨_, boot_of_image s lines img himg hfits, launched_loadedWith img _ hout ?_⟩
    rw [assembleLines_diag, hdiag, reports_of_image lines img himg hwarn, List.append_nil]

/-! ## Terminal states -/

/-- Settles O45: a terminal state absorbs the trigger, and the other host calls write other fields. -/
theorem resetIsTheOnlyWayOutOfATerminalState :
    Obligations.ResetIsTheOnlyWayOutOfATerminalState := by
  refine ⟨fun n s => rfl, fun s t hs hstep => ?_, fun s item => supplyInput_state s item,
    fun s lines => assembleLines_state lines s⟩
  rw [step_of_terminal s hs] at hstep
  rw [Host.Outcome.next.inj hstep]

end Sys2Proof.Machine
